-- ==== Sys2Proof/Word.lean ====
section
/-! DEFINITION. The word types (00_scope.md R8: bit 0 is the least significant bit; R7: every value is unsigned). -/

namespace Sys2Proof

/-- A byte: a V register, a timer, a memory byte, the immediate kk. -/
abbrev Byte := BitVec 8

/-- A 16-bit word: an instruction word, I, PC, a stack slot, fault_pc. -/
abbrev Word := BitVec 16

/-- A 4-bit field: a nibble of an instruction, a register number, a sprite height, a key number. -/
abbrev Nibble := BitVec 4

/-- A 12-bit immediate address (the field nnn). -/
abbrev Addr12 := BitVec 12

end Sys2Proof
end

