-- ==== Sys2Proof/Syntax.lean ====
section
/-! DEFINITION. The instructions: one constructor per row of spec/opcode_table.json, in its order (30_encoding.md R76).
x and y are register numbers, kk a byte, nnn a 12-bit address, n a sprite height (R71, R75); every value of each is legal. -/

namespace Sys2Proof

inductive Instr where
  /-- `00E0` CLS -/
  | cls
  /-- `00EE` RET -/
  | ret
  /-- `1nnn` JP nnn -/
  | jp (nnn : Addr12)
  /-- `2nnn` CALL nnn -/
  | call (nnn : Addr12)
  /-- `3xkk` SE Vx, kk -/
  | seImm (x : Nibble) (kk : Byte)
  /-- `4xkk` SNE Vx, kk -/
  | sneImm (x : Nibble) (kk : Byte)
  /-- `5xy0` SE Vx, Vy -/
  | seReg (x y : Nibble)
  /-- `9xy0` SNE Vx, Vy -/
  | sneReg (x y : Nibble)
  /-- `6xkk` LD Vx, kk -/
  | ldImm (x : Nibble) (kk : Byte)
  /-- `7xkk` ADD Vx, kk -/
  | addImm (x : Nibble) (kk : Byte)
  /-- `8xy0` LD Vx, Vy -/
  | ldReg (x y : Nibble)
  /-- `8xy1` OR Vx, Vy -/
  | orReg (x y : Nibble)
  /-- `8xy2` AND Vx, Vy -/
  | andReg (x y : Nibble)
  /-- `8xy3` XOR Vx, Vy -/
  | xorReg (x y : Nibble)
  /-- `8xy4` ADD Vx, Vy -/
  | addReg (x y : Nibble)
  /-- `8xy5` SUB Vx, Vy -/
  | subReg (x y : Nibble)
  /-- `8xy6` SHR Vx; the y field is kept and has no effect (R75) -/
  | shr (x y : Nibble)
  /-- `8xy7` SUBN Vx, Vy -/
  | subnReg (x y : Nibble)
  /-- `8xyE` SHL Vx; the y field is kept and has no effect (R75) -/
  | shl (x y : Nibble)
  /-- `Annn` LD I, nnn -/
  | ldI (nnn : Addr12)
  /-- `Bnnn` JP V0, nnn -/
  | jpV0 (nnn : Addr12)
  /-- `Cxkk` RND Vx, kk -/
  | rnd (x : Nibble) (kk : Byte)
  /-- `Dxyn` DRW Vx, Vy, n -/
  | drw (x y n : Nibble)
  /-- `Ex9E` SKP Vx -/
  | skp (x : Nibble)
  /-- `ExA1` SKNP Vx -/
  | sknp (x : Nibble)
  /-- `Fx07` LD Vx, DT -/
  | readDt (x : Nibble)
  /-- `Fx0A` LD Vx, K -/
  | waitKey (x : Nibble)
  /-- `Fx15` LD DT, Vx -/
  | setDt (x : Nibble)
  /-- `Fx18` LD ST, Vx -/
  | setSt (x : Nibble)
  /-- `Fx1E` ADD I, Vx -/
  | addI (x : Nibble)
  /-- `Fx29` LD F, Vx -/
  | ldGlyph (x : Nibble)
  /-- `Fx33` LD B, Vx -/
  | bcd (x : Nibble)
  /-- `Fx55` LD [I], Vx -/
  | storeRegs (x : Nibble)
  /-- `Fx65` LD Vx, [I] -/
  | loadRegs (x : Nibble)
  /-- `.word w`: any word that matches none of the 34 patterns (46_unmatched_noop.md R170) -/
  | noop (w : Word)
  deriving DecidableEq, Repr

end Sys2Proof
end

