-- ==== Sys2Proof/WellFormed.lean ====
section
/-! DEFINITION. Which instruction terms stand for an instruction: every operand value is legal (30_encoding.md R75), so the one
check is that a no-op carries an unmatched word (46_unmatched_noop.md R171). -/

namespace Sys2Proof

/-- The unmatched words, exactly as 46_unmatched_noop.md R171 lists them by major opcode. -/
def unmatched (w : Word) : Bool :=
  let n := w.toNat % 16
  let kk := w.toNat % 256
  match w.toNat / 4096 with
  | 0x0 => !(w.toNat == 0x00E0 || w.toNat == 0x00EE)
  | 0x5 => n != 0
  | 0x8 => [0x8, 0x9, 0xA, 0xB, 0xC, 0xD, 0xF].contains n
  | 0x9 => n != 0
  | 0xE => !([0x9E, 0xA1].contains kk)
  | 0xF => !([0x07, 0x0A, 0x15, 0x18, 0x1E, 0x29, 0x33, 0x55, 0x65].contains kk)
  | _ => false

/-- Well-formed instructions: all but a no-op whose word matches one of the 34 patterns. -/
def Instr.wellFormed : Instr → Bool
  | .noop w => unmatched w
  | .cls | .ret => true
  | .jp _ | .call _ | .ldI _ | .jpV0 _ => true
  | .seImm _ _ | .sneImm _ _ | .ldImm _ _ | .addImm _ _ | .rnd _ _ => true
  | .seReg _ _ | .sneReg _ _ | .ldReg _ _ | .orReg _ _ | .andReg _ _ | .xorReg _ _ => true
  | .addReg _ _ | .subReg _ _ | .shr _ _ | .subnReg _ _ | .shl _ _ => true
  | .drw _ _ _ => true
  | .skp _ | .sknp _ | .readDt _ | .waitKey _ | .setDt _ | .setSt _ => true
  | .addI _ | .ldGlyph _ | .bcd _ | .storeRegs _ | .loadRegs _ => true

end Sys2Proof
end

