-- ==== Sys2Proof/Decode.lean ====
section
/-! DEFINITION. The decoder (30_encoding.md R70, R71, R74, R77), total on any bytes; the encoder, written from the formats of
R72; and the opcode map of R76 as a table of masks and matches. -/

namespace Sys2Proof

/-- The field op, w[15:12] (R71). -/
def fieldOp (w : Word) : Nibble := w.extractLsb' 12 4

/-- The field x, w[11:8] (R71). -/
def fieldX (w : Word) : Nibble := w.extractLsb' 8 4

/-- The field y, w[7:4] (R71). -/
def fieldY (w : Word) : Nibble := w.extractLsb' 4 4

/-- The field n, w[3:0] (R71). -/
def fieldN (w : Word) : Nibble := w.extractLsb' 0 4

/-- The field kk, w[7:0] (R71). -/
def fieldKk (w : Word) : Byte := w.extractLsb' 0 8

/-- The field nnn, w[11:0] (R71). -/
def fieldNnn (w : Word) : Addr12 := w.extractLsb' 0 12

/-- Major opcode 0: only `00E0` and `00EE` are defined (R77; no other `0nnn` exists, 90_conflicts.md C1). -/
def decodeMajor0 (w : Word) : Instr :=
  if w = 0x00E0#16 then .cls else if w = 0x00EE#16 then .ret else .noop w

/-- Major opcode 8, by n (R77). -/
def decodeMajor8 (w : Word) : Instr :=
  match fieldN w with
  | 0x0#4 => .ldReg (fieldX w) (fieldY w)
  | 0x1#4 => .orReg (fieldX w) (fieldY w)
  | 0x2#4 => .andReg (fieldX w) (fieldY w)
  | 0x3#4 => .xorReg (fieldX w) (fieldY w)
  | 0x4#4 => .addReg (fieldX w) (fieldY w)
  | 0x5#4 => .subReg (fieldX w) (fieldY w)
  | 0x6#4 => .shr (fieldX w) (fieldY w)
  | 0x7#4 => .subnReg (fieldX w) (fieldY w)
  | 0xE#4 => .shl (fieldX w) (fieldY w)
  | _ => .noop w

/-- Major opcode E, by kk (R77). -/
def decodeMajorE (w : Word) : Instr :=
  match fieldKk w with
  | 0x9E#8 => .skp (fieldX w)
  | 0xA1#8 => .sknp (fieldX w)
  | _ => .noop w

/-- Major opcode F, by kk (R77). -/
def decodeMajorF (w : Word) : Instr :=
  match fieldKk w with
  | 0x07#8 => .readDt (fieldX w)
  | 0x0A#8 => .waitKey (fieldX w)
  | 0x15#8 => .setDt (fieldX w)
  | 0x18#8 => .setSt (fieldX w)
  | 0x1E#8 => .addI (fieldX w)
  | 0x29#8 => .ldGlyph (fieldX w)
  | 0x33#8 => .bcd (fieldX w)
  | 0x55#8 => .storeRegs (fieldX w)
  | 0x65#8 => .loadRegs (fieldX w)
  | _ => .noop w

/-- The decoder: the switch on the major opcode of R77. Every one of the 65536 words has a meaning (R74, R78). -/
def decode (w : Word) : Instr :=
  match fieldOp w with
  | 0x0#4 => decodeMajor0 w
  | 0x1#4 => .jp (fieldNnn w)
  | 0x2#4 => .call (fieldNnn w)
  | 0x3#4 => .seImm (fieldX w) (fieldKk w)
  | 0x4#4 => .sneImm (fieldX w) (fieldKk w)
  | 0x5#4 => if fieldN w = 0#4 then .seReg (fieldX w) (fieldY w) else .noop w
  | 0x6#4 => .ldImm (fieldX w) (fieldKk w)
  | 0x7#4 => .addImm (fieldX w) (fieldKk w)
  | 0x8#4 => decodeMajor8 w
  | 0x9#4 => if fieldN w = 0#4 then .sneReg (fieldX w) (fieldY w) else .noop w
  | 0xA#4 => .ldI (fieldNnn w)
  | 0xB#4 => .jpV0 (fieldNnn w)
  | 0xC#4 => .rnd (fieldX w) (fieldKk w)
  | 0xD#4 => .drw (fieldX w) (fieldY w) (fieldN w)
  | 0xE#4 => decodeMajorE w
  | _ => decodeMajorF w

/-- The instruction word held in two bytes, the first (lower address) the more significant (20_memory.md R52). -/
def wordOfBytes (hi lo : Byte) : Word := hi ++ lo

/-- The byte of a word stored at the lower address. -/
def hiByte (w : Word) : Byte := w.extractLsb' 8 8

/-- The byte of a word stored at the higher address. -/
def loByte (w : Word) : Byte := w.extractLsb' 0 8

/-- Why bytes cannot be decoded. -/
inductive DecodeError where
  /-- Fewer than the two bytes of an instruction (R70). -/
  | fewerThanTwoBytes
  deriving DecidableEq, Repr

/-- Decoding a list of bytes: the instruction and the bytes after it (R70: always two). -/
def decodeBytes : List Byte → Except DecodeError (Instr × List Byte)
  | hi :: lo :: rest => .ok (decode (wordOfBytes hi lo), rest)
  | _ => .error .fewerThanTwoBytes

/-- The bytes, in memory order, of an instruction given as a number whose bit 0 is the least significant bit of its word,
of which the lowest `nbits` bits are given and the others are 0. -/
def tableWordBytes (nbits w : Nat) : List Byte :=
  let word : Word := BitVec.ofNat 16 (w % 2 ^ nbits)
  [hiByte word, loByte word]

/-- What the decoder reads from an instruction numbered as spec/opcode_table.json numbers it. -/
def decodeTableWord (nbits w : Nat) : Option Instr :=
  match decodeBytes (tableWordBytes nbits w) with
  | .ok (instr, _) => some instr
  | .error _ => none

/-! The encoder, by the formats of R72. -/

/-- Format NNN: op, nnn. -/
def encodeNnn (op : Nibble) (nnn : Addr12) : Word := op ++ nnn

/-- Formats XKK and XM: op, x, a byte. -/
def encodeXkk (op x : Nibble) (kk : Byte) : Word := op ++ x ++ kk

/-- Formats XY and XYN: op, x, y, a nibble. -/
def encodeXyn (op x y n : Nibble) : Word := op ++ x ++ y ++ n

/-- The word of an instruction (30_encoding.md R72, R76). -/
def encode : Instr → Word
  | .cls => 0x00E0#16
  | .ret => 0x00EE#16
  | .jp nnn => encodeNnn 0x1#4 nnn
  | .call nnn => encodeNnn 0x2#4 nnn
  | .seImm x kk => encodeXkk 0x3#4 x kk
  | .sneImm x kk => encodeXkk 0x4#4 x kk
  | .seReg x y => encodeXyn 0x5#4 x y 0x0#4
  | .sneReg x y => encodeXyn 0x9#4 x y 0x0#4
  | .ldImm x kk => encodeXkk 0x6#4 x kk
  | .addImm x kk => encodeXkk 0x7#4 x kk
  | .ldReg x y => encodeXyn 0x8#4 x y 0x0#4
  | .orReg x y => encodeXyn 0x8#4 x y 0x1#4
  | .andReg x y => encodeXyn 0x8#4 x y 0x2#4
  | .xorReg x y => encodeXyn 0x8#4 x y 0x3#4
  | .addReg x y => encodeXyn 0x8#4 x y 0x4#4
  | .subReg x y => encodeXyn 0x8#4 x y 0x5#4
  | .shr x y => encodeXyn 0x8#4 x y 0x6#4
  | .subnReg x y => encodeXyn 0x8#4 x y 0x7#4
  | .shl x y => encodeXyn 0x8#4 x y 0xE#4
  | .ldI nnn => encodeNnn 0xA#4 nnn
  | .jpV0 nnn => encodeNnn 0xB#4 nnn
  | .rnd x kk => encodeXkk 0xC#4 x kk
  | .drw x y n => encodeXyn 0xD#4 x y n
  | .skp x => encodeXkk 0xE#4 x 0x9E#8
  | .sknp x => encodeXkk 0xE#4 x 0xA1#8
  | .readDt x => encodeXkk 0xF#4 x 0x07#8
  | .waitKey x => encodeXkk 0xF#4 x 0x0A#8
  | .setDt x => encodeXkk 0xF#4 x 0x15#8
  | .setSt x => encodeXkk 0xF#4 x 0x18#8
  | .addI x => encodeXkk 0xF#4 x 0x1E#8
  | .ldGlyph x => encodeXkk 0xF#4 x 0x29#8
  | .bcd x => encodeXkk 0xF#4 x 0x33#8
  | .storeRegs x => encodeXkk 0xF#4 x 0x55#8
  | .loadRegs x => encodeXkk 0xF#4 x 0x65#8
  | .noop w => w

/-- One row of the opcode map (R76): the mask and match of spec/opcode_table.json and the instruction a matching word is. -/
structure OpcodeRow where
  mnemonic : String
  mask : Word
  pattern : Word
  instr : Word → Instr

/-- A word matches a row: `(w AND mask) = match` (R74). -/
def OpcodeRow.matchesWord (r : OpcodeRow) (w : Word) : Bool := w &&& r.mask == r.pattern

/-- Rows 1 to 8 of R76. -/
def opcodeRowsFlow : List OpcodeRow := [
  ⟨"CLS", 0xFFFF, 0x00E0, fun _ => .cls⟩,
  ⟨"RET", 0xFFFF, 0x00EE, fun _ => .ret⟩,
  ⟨"JP_nnn", 0xF000, 0x1000, fun w => .jp (fieldNnn w)⟩,
  ⟨"CALL_nnn", 0xF000, 0x2000, fun w => .call (fieldNnn w)⟩,
  ⟨"SE_Vx__kk", 0xF000, 0x3000, fun w => .seImm (fieldX w) (fieldKk w)⟩,
  ⟨"SNE_Vx__kk", 0xF000, 0x4000, fun w => .sneImm (fieldX w) (fieldKk w)⟩,
  ⟨"SE_Vx__Vy", 0xF00F, 0x5000, fun w => .seReg (fieldX w) (fieldY w)⟩,
  ⟨"SNE_Vx__Vy", 0xF00F, 0x9000, fun w => .sneReg (fieldX w) (fieldY w)⟩]

/-- Rows 9 to 19 of R76. -/
def opcodeRowsAlu : List OpcodeRow := [
  ⟨"LD_Vx__kk", 0xF000, 0x6000, fun w => .ldImm (fieldX w) (fieldKk w)⟩,
  ⟨"ADD_Vx__kk", 0xF000, 0x7000, fun w => .addImm (fieldX w) (fieldKk w)⟩,
  ⟨"LD_Vx__Vy", 0xF00F, 0x8000, fun w => .ldReg (fieldX w) (fieldY w)⟩,
  ⟨"OR_Vx__Vy", 0xF00F, 0x8001, fun w => .orReg (fieldX w) (fieldY w)⟩,
  ⟨"AND_Vx__Vy", 0xF00F, 0x8002, fun w => .andReg (fieldX w) (fieldY w)⟩,
  ⟨"XOR_Vx__Vy", 0xF00F, 0x8003, fun w => .xorReg (fieldX w) (fieldY w)⟩,
  ⟨"ADD_Vx__Vy", 0xF00F, 0x8004, fun w => .addReg (fieldX w) (fieldY w)⟩,
  ⟨"SUB_Vx__Vy", 0xF00F, 0x8005, fun w => .subReg (fieldX w) (fieldY w)⟩,
  ⟨"SHR_Vx", 0xF00F, 0x8006, fun w => .shr (fieldX w) (fieldY w)⟩,
  ⟨"SUBN_Vx__Vy", 0xF00F, 0x8007, fun w => .subnReg (fieldX w) (fieldY w)⟩,
  ⟨"SHL_Vx", 0xF00F, 0x800E, fun w => .shl (fieldX w) (fieldY w)⟩]

/-- Rows 20 to 34 of R76. -/
def opcodeRowsRest : List OpcodeRow := [
  ⟨"LD_I__nnn", 0xF000, 0xA000, fun w => .ldI (fieldNnn w)⟩,
  ⟨"JP_V0__nnn", 0xF000, 0xB000, fun w => .jpV0 (fieldNnn w)⟩,
  ⟨"RND_Vx__kk", 0xF000, 0xC000, fun w => .rnd (fieldX w) (fieldKk w)⟩,
  ⟨"DRW_Vx__Vy__n", 0xF000, 0xD000, fun w => .drw (fieldX w) (fieldY w) (fieldN w)⟩,
  ⟨"SKP_Vx", 0xF0FF, 0xE09E, fun w => .skp (fieldX w)⟩,
  ⟨"SKNP_Vx", 0xF0FF, 0xE0A1, fun w => .sknp (fieldX w)⟩,
  ⟨"LD_Vx__DT", 0xF0FF, 0xF007, fun w => .readDt (fieldX w)⟩,
  ⟨"LD_Vx__K", 0xF0FF, 0xF00A, fun w => .waitKey (fieldX w)⟩,
  ⟨"LD_DT__Vx", 0xF0FF, 0xF015, fun w => .setDt (fieldX w)⟩,
  ⟨"LD_ST__Vx", 0xF0FF, 0xF018, fun w => .setSt (fieldX w)⟩,
  ⟨"ADD_I__Vx", 0xF0FF, 0xF01E, fun w => .addI (fieldX w)⟩,
  ⟨"LD_F__Vx", 0xF0FF, 0xF029, fun w => .ldGlyph (fieldX w)⟩,
  ⟨"LD_B__Vx", 0xF0FF, 0xF033, fun w => .bcd (fieldX w)⟩,
  ⟨"LD__I___Vx", 0xF0FF, 0xF055, fun w => .storeRegs (fieldX w)⟩,
  ⟨"LD_Vx___I", 0xF0FF, 0xF065, fun w => .loadRegs (fieldX w)⟩]

/-- The 34 patterns of the opcode map, in the order of R76; row 35 is what remains. The decoder does not use it. -/
def opcodeTable : List OpcodeRow := opcodeRowsFlow ++ opcodeRowsAlu ++ opcodeRowsRest

end Sys2Proof
end

