-- ==== Sys2Proof/Config.lean ====
section
/-! DEFINITION. What is fixed for the machine: the sizes of 00_scope.md R5, the parameters of R6, the
events of the three agents (60_exceptions.md R196), and the two free values. -/

namespace Sys2Proof.Machine

/-- One event of one agent (60_exceptions.md R196; 70_reset_and_hazards.md R214). Host reads change nothing and are no
event here; they are the functions of Ports.lean. -/
inductive Event where
  /-- The engine's Step (30_encoding.md R73). -/
  | step
  /-- The timer unit's Tick (R197). -/
  | tick
  /-- The host's KeySet(k); k has four bits, since no event with k > 15 reaches the block (R199; log 8). -/
  | keySet (k : Nibble)
  /-- The host's KeyClear(k) (R199). -/
  | keyClear (k : Nibble)
  /-- The host's Reset (R210). -/
  | reset
  /-- The host's Load(GLYPH_DATA, image) (R213). -/
  | load (glyphs : Vector Byte 80) (image : List Byte)
  deriving DecidableEq, Repr, Inhabited

end Sys2Proof.Machine

namespace Sys2Proof.Config

/-- The number of bytes of Mem (00_scope.md R5). -/
def memSize : Nat := 4096

/-- The highest address of Mem, 0xFFF (R5, R11). -/
def lastAddress : Nat := 0xFFF

/-- Where the program image is loaded and where the first instruction is fetched from (R5; 70 R211). -/
def programBase : Nat := 0x200

/-- The longest program image, 4096 - 512 bytes (R5; 70 R213). -/
def maxProgramBytes : Nat := 3584

/-- GLYPH_BASE, the address of the glyph table (00_scope.md R6; UNVERIFIED, the spec's decision D1: log 11). -/
def glyphBase : Nat := 0x050

/-- GLYPH_BYTES of one glyph (R5): one byte per sprite row, top row first (10_state.md R35). -/
def glyphHeight : Nat := 5

/-- DISPLAY_W (R5). -/
def displayWidth : Nat := 64

/-- DISPLAY_H (R5). -/
def displayHeight : Nat := 32

/-- `Rand8()` (00_scope.md R15): the byte drawn by the n-th execution of `Cxkk`. It has no body, so no proof can
know a value of it; the draws are numbered by the field `draws` of the state (DESIGN CHOICE: log 1). -/
opaque rand8 : Nat → Byte

/-- The n-th event of a stream without end (60_exceptions.md R196; 92_eei_decisions.md D10: any interleaving, finite or not, no
fairness). It has no body, so no proof can know which events it holds or whether a Tick is ever among them; a schedule
reads it by position (DESIGN CHOICE: log 2). -/
opaque freeEvent : Nat → Machine.Event

/-- The default value of GLYPH_DATA (10_state.md R36). PRESUMED, general knowledge by the spec's own words: log 12.
No meaning, no reset value and no rule uses it; it is one possible argument of the Load event. -/
def defaultGlyphData : Vector Byte 80 := #v[
  0xF0, 0x90, 0x90, 0x90, 0xF0,   0x20, 0x60, 0x20, 0x20, 0x70,
  0xF0, 0x10, 0xF0, 0x80, 0xF0,   0xF0, 0x10, 0xF0, 0x10, 0xF0,
  0x90, 0x90, 0xF0, 0x10, 0x10,   0xF0, 0x80, 0xF0, 0x10, 0xF0,
  0xF0, 0x80, 0xF0, 0x90, 0xF0,   0xF0, 0x10, 0x20, 0x40, 0x40,
  0xF0, 0x90, 0xF0, 0x90, 0xF0,   0xF0, 0x90, 0xF0, 0x10, 0xF0,
  0xF0, 0x90, 0xF0, 0x90, 0x90,   0xE0, 0x90, 0xE0, 0x90, 0xE0,
  0xF0, 0x80, 0x80, 0x80, 0xF0,   0xE0, 0x90, 0x90, 0x90, 0xE0,
  0xF0, 0x80, 0xF0, 0x80, 0xF0,   0xF0, 0x80, 0xF0, 0x80, 0x80]

end Sys2Proof.Config
end

