-- ==== Sys2Proof/Machine/State.lean ====
section
/-! DEFINITION. The state of the block (10_state.md R20), its reset value (R38), the order of events to come
(60_exceptions.md R196), and the reasons a step can stop. -/

namespace Sys2Proof.Machine

/-- Mem (10_state.md R29): the bytes that are not 0, each with its address, addresses strictly rising. An address that is not
listed reads 0, the reset content of every byte (R38). `Memory.wf` (Ops.lean) is the canonical form. -/
abbrev Memory := List Host.Cell

/-- The pixel plane (10_state.md R30): 32 rows of 64 cells, row-major; cell (c, r) is entry c of row r. -/
abbrev Plane := Vector (Vector Bool 64) 32

/-- The values of fault_cause (10_state.md R33; 60_exceptions.md R181). -/
inductive Cause where
  /-- 0: no fault since reset. -/
  | none
  /-- 1: `2nnn` with SP = 16 (R182). -/
  | stackOverflow
  /-- 2: `00EE` with SP = 0 (R183). -/
  | stackUnderflow
  /-- 3: a Step that begins with PC > 0xFFE (R184). -/
  | fetchOutOfRange
  /-- 4: a data access whose highest address is above 0xFFF (R191). -/
  | dataAddressOutOfRange
  /-- 5: `Ex9E` or `ExA1` with Vx > 0xF (R192). -/
  | keyIndexOutOfRange
  deriving DecidableEq, Repr

/-- What comes after the listed events of a schedule. -/
inductive Source where
  /-- The engine's Step, over and over. -/
  | steps
  /-- The free stream of events `Config.freeEvent`, from a position on: any order of any agents' events, without end. -/
  | free (position : Nat)
  deriving DecidableEq, Repr

/-- The events still to come: those listed, the next one first, and after them those of a source. -/
structure Schedule where
  listed : List Event
  after : Source
  deriving DecidableEq, Repr

/-- Where the session stands with respect to Load (70_reset_and_hazards.md R213, R215). -/
inductive Phase where
  /-- Reset has happened, and no Load and no Step since: the one Load may come. -/
  | created
  /-- Load or a Step has happened: the host has no access to Mem any more. -/
  | underway
  deriving DecidableEq, Repr

/-- The complete state of the block (R20), and after it three fields of the model's own. -/
structure State where
  /-- V0..VF (R21); VF is also the flag (R22). -/
  v : Vector Byte 16
  /-- I, all 16 bits of it state (R23). -/
  i : Word
  /-- PC, the address of the next instruction between steps (R24). -/
  pc : Word
  /-- S[0..15], outside the address space (R25). -/
  stack : Vector Word 16
  /-- SP, the number of return addresses on the stack, 0..16 (R26; log 6). -/
  sp : Fin 17
  /-- DT (R27). -/
  dt : Byte
  /-- ST (R28). -/
  st : Byte
  /-- Mem (R29). -/
  mem : Memory
  /-- P (R30). -/
  plane : Plane
  /-- K (R31): true is pressed. -/
  keys : Vector Bool 16
  /-- halted (R32). -/
  halted : Bool
  /-- fault_cause (R33). -/
  faultCause : Cause
  /-- fault_pc (R34). -/
  faultPc : Word
  /-- THE MODEL'S OWN: how many bytes `Rand8()` has given; the next is `Config.rand8 draws`
  (00_scope.md R15; DESIGN CHOICE: log 1). -/
  draws : Nat
  /-- THE MODEL'S OWN: the events still to come (60_exceptions.md R196; DESIGN CHOICE: log 2). -/
  schedule : Schedule
  /-- THE MODEL'S OWN: whether the one Load of the session may still come (70_reset_and_hazards.md R213; log 7). -/
  phase : Phase
  deriving DecidableEq, Repr

/-- Why a step can stop with a fault: never. A fault of this hardware is a state, which the spec describes whole
(60_exceptions.md R185, R187), so it is a next state (log 4). No constructor, so nothing raises one. -/
inductive Fault where
  deriving DecidableEq, Repr

/-- Why a step can be refused. -/
inductive Refusal where
  /-- An instruction that has no meaning yet; raised by an arm of `exec` alone. Safe: the run stops. -/
  | notModelled (mnemonic : String)
  /-- A Load of an image longer than 3584 bytes, raised by that event and by no instruction: not a case of the block, the
  host must not offer one (70_reset_and_hazards.md R213; 93_implementation_defined.md U13; log 7). Safe: the run stops. -/
  | imageTooLong
  /-- A second Load of a session, or one after its first Step, raised by that event and by no instruction: the host never
  writes Mem at that time (R213, R214; U14; log 7). Safe: the run stops. -/
  | loadNotAllowed
  deriving DecidableEq, Repr

/-- The outcome of a step. -/
abbrev Result := Host.Outcome State Fault Refusal

/-- The machine right after Reset and before Load (10_state.md R38; 70_reset_and_hazards.md R210): everything zero, PC = 0x200.
`phase` says so. `draws` and `schedule` are the model's own and take DESIGN CHOICE values (logs 1 and 2). -/
def State.reset : State where
  v := Vector.replicate 16 0#8
  i := 0#16
  pc := 0x200#16
  stack := Vector.replicate 16 0#16
  sp := 0
  dt := 0#8
  st := 0#8
  mem := []
  plane := Vector.replicate 32 (Vector.replicate 64 false)
  keys := Vector.replicate 16 false
  halted := false
  faultCause := .none
  faultPc := 0#16
  draws := 0
  schedule := { listed := [], after := .steps }
  phase := .created

end Sys2Proof.Machine
end

