-- ==== Sys2Proof/Machine/Ops.lean ====
section
/-! DEFINITION. The named operations over the state: registers, memory, plane, stack, fetch; taking a fault; the timer unit's
and the host's actions. -/

namespace Sys2Proof.Machine

/-! Registers -/

/-- `V[x]` read as a value (00_scope.md R10); no register is hard-wired (10_state.md R21). -/
def State.getV (s : State) (x : Nibble) : Byte := s.v[x.toNat]'(x.isLt)

/-- `V[x] <- b`. -/
def State.setV (s : State) (x : Nibble) (b : Byte) : State := { s with v := s.v.set x.toNat b x.isLt }

/-- `I <- a`. -/
def State.setI (s : State) (a : Word) : State := { s with i := a }

/-- `PC <- a`. -/
def State.setPc (s : State) (a : Word) : State := { s with pc := a }

/-- `DT <- b`. -/
def State.setDt (s : State) (b : Byte) : State := { s with dt := b }

/-- `ST <- b`. -/
def State.setSt (s : State) (b : Byte) : State := { s with st := b }

/-- All of Mem replaced (used with the memory operations below). -/
def State.setMem (s : State) (m : Memory) : State := { s with mem := m }

/-- All of P replaced (used with the plane operations below). -/
def State.setPlane (s : State) (p : Plane) : State := { s with plane := p }

/-- `PC <- (PC + 2) mod 65536`: the instruction cycle's advance (30_encoding.md R73) and `Skip()` (41_skips.md R110). -/
def State.advancePc (s : State) : State := { s with pc := s.pc + 2#16 }

/-! Memory -/

/-- The byte at an address (00_scope.md R10): 0 where nothing is listed. Every caller has tested the range first (log 5). -/
def Memory.read : Memory → Nat → Byte
  | [], _ => 0#8
  | (a', b) :: m, a => if a = a' then b else Memory.read m a

/-- `Mem[a] <- b`, keeping the canonical form: a byte 0 is not listed. -/
def Memory.write : Memory → Nat → Byte → Memory
  | [], a, b => if b = 0#8 then [] else [(a, b)]
  | (a', b') :: m, a, b =>
    if a < a' then (if b = 0#8 then (a', b') :: m else (a, b) :: (a', b') :: m)
    else if a = a' then (if b = 0#8 then m else (a, b) :: m)
    else (a', b') :: Memory.write m a b

/-- Every listed address is at least `lo` and they rise strictly, lies in Mem, and lists a byte other than 0. -/
def Memory.wfFrom : Nat → Memory → Bool
  | _, [] => true
  | lo, (a, b) :: m => decide (lo ≤ a) && decide (a < Config.memSize) && (b != 0#8) && Memory.wfFrom (a + 1) m

/-- The canonical form of Mem: equal memories are equal lists. -/
def Memory.wf (m : Memory) : Bool := Memory.wfFrom 0 m

/-- The bytes of a list written at ascending addresses from `base` (70_reset_and_hazards.md R213). -/
def Memory.writeBytes (m : Memory) (base : Nat) : List Byte → Memory
  | [] => m
  | b :: bs => Memory.writeBytes (m.write base b) (base + 1) bs

/-! The pixel plane -/

/-- The cell at column c modulo 64 and row r modulo 32 (44_display.md R150). -/
def Plane.cell (p : Plane) (c r : Nat) : Bool :=
  (p[r % 32]'(Nat.mod_lt r (by decide)))[c % 64]'(Nat.mod_lt c (by decide))

/-- That cell written. -/
def Plane.setCell (p : Plane) (c r : Nat) (b : Bool) : Plane :=
  p.set (r % 32)
    ((p[r % 32]'(Nat.mod_lt r (by decide))).set (c % 64) b (Nat.mod_lt c (by decide)))
    (Nat.mod_lt r (by decide))

/-- Every cell 0. -/
def Plane.clear : Plane := Vector.replicate 32 (Vector.replicate 64 false)

/-- `TogglePixel(c, r)` (44_display.md R150): the plane with the wrapped cell toggled, and `erased`, whether it was set. -/
def togglePixel (p : Plane) (c r : Nat) : Plane × Bool := (p.setCell c r (!p.cell c r), p.cell c r)

/-- One toggle of a sprite, its `erased` ORed into the collision so far (R152). -/
def drawPixel (acc : Plane × Bool) (c r : Nat) : Plane × Bool :=
  ((togglePixel acc.1 c r).1, acc.2 || (togglePixel acc.1 c r).2)

/-! The call stack -/

/-- `S[SP] <- a; SP <- SP + 1` (40_control_transfer.md R102), when SP is not 16. -/
def pushReturn (a : Word) (s : State) : Option State :=
  if h : s.sp.val < 16 then
    some { s with stack := s.stack.set s.sp.val a h, sp := ⟨s.sp.val + 1, by omega⟩ }
  else none

/-- `SP <- SP - 1`, and the slot at the new SP (R100), when SP is not 0; the slot keeps its value (10_state.md R25). -/
def popReturn (s : State) : Option (Word × State) :=
  if h : 0 < s.sp.val then
    some (s.stack[s.sp.val - 1]'(by omega), { s with sp := ⟨s.sp.val - 1, by omega⟩ })
  else none

/-! The key latch -/

/-- `K[k]` (10_state.md R31). -/
def State.keyDown (s : State) (k : Nibble) : Bool := s.keys[k.toNat]'(k.isLt)

/-- `K[k] <- b`: only the host's events do it (R31). -/
def State.setKey (s : State) (k : Nibble) (b : Bool) : State := { s with keys := s.keys.set k.toNat b k.isLt }

/-! Fetch -/

/-- `Fetch(PC)` (00_scope.md R13; 20_memory.md R52): big-endian, from any PC up to 0xFFE, odd ones too (R54). -/
def fetch (s : State) : Option Word :=
  if s.pc.toNat + 1 ≤ Config.lastAddress then
    some (wordOfBytes (s.mem.read s.pc.toNat) (s.mem.read (s.pc.toNat + 1)))
  else none

/-! Taking a fault. There is no return from one: no handler, no vector, only Reset leaves it (60_exceptions.md R189). -/

/-- Fault entry (60_exceptions.md R185) of a Step that began with PC = pc0, on a state that has undone that Step's writes but
for the PC: PC back to pc0, halted, the cause and fault_pc recorded. -/
def enterFault (cause : Cause) (pc0 : Word) (s : State) : State :=
  { s with pc := pc0, halted := true, faultCause := cause, faultPc := pc0 }

/-- `raise Fault(cause)` in the execute phase (00_scope.md R14). Every rule raises it before its first write (R186), so the one
write of the Step to undo is the advance of PC by 2 (log 5). -/
def raiseFault (cause : Cause) (s : State) : Result := .next (enterFault cause (s.pc - 2#16) s)

/-! The timer unit and the host -/

/-- Tick (60_exceptions.md R197): both timers down by one, floored at 0; frozen while halted (R187). -/
def tick (s : State) : State :=
  if s.halted then s
  else { s with
    dt := if s.dt = 0#8 then 0#8 else s.dt - 1#8
    st := if s.st = 0#8 then 0#8 else s.st - 1#8 }

/-- KeySet(k) (R199); it writes K also while halted (R187). -/
def keySet (k : Nibble) (s : State) : State := s.setKey k true

/-- KeyClear(k) (R199). -/
def keyClear (k : Nibble) (s : State) : State := s.setKey k false

/-- Reset (70_reset_and_hazards.md R210), the only way out of the halted state. The draws made and the events to come are the
world's, not the block's, and are kept (DESIGN CHOICE: logs 1 and 2). A new session begins, which may Load. -/
def hostReset (s : State) : State := { State.reset with draws := s.draws, schedule := s.schedule }

/-- What Load writes (70_reset_and_hazards.md R213): the glyph table, then the image, and nothing else. -/
def loadImage (glyphs : Vector Byte 80) (image : List Byte) (s : State) : State :=
  s.setMem ((s.mem.writeBytes Config.glyphBase glyphs.toList).writeBytes Config.programBase image)

/-- From now on no Load is allowed in this session (R213, R215). -/
def State.closeLoad (s : State) : State := { s with phase := .underway }

/-- Load as an event: once per session and before the first Step, of at most 3584 bytes; what the host must never do is refused
(R213, R214; log 7). -/
def load (glyphs : Vector Byte 80) (image : List Byte) (s : State) : Result :=
  match s.phase with
  | .underway => .refused .loadNotAllowed
  | .created =>
    if image.length ≤ Config.maxProgramBytes then .next (loadImage glyphs image s).closeLoad else .refused .imageTooLong

end Sys2Proof.Machine
end

