-- ==== Sys2Proof/Machine/Operands.lean ====
section
/-! DEFINITION. Operand assembly (30_encoding.md R75): extensions, effective addresses, sprite bits, decimal digits, the
pressed key. -/

namespace Sys2Proof.Machine

/-- `zext_16(nnn)` (R75). -/
def zext16 (nnn : Addr12) : Word := nnn.setWidth 16

/-- `nnn + v0`, in unbounded integers; it fits 16 bits without reduction (40_control_transfer.md R103). -/
def indexedTarget (nnn : Addr12) (v0 : Byte) : Word := BitVec.ofNat 16 (nnn.toNat + v0.toNat)

/-- The effective address I + offset, never reduced (43_index_memory.md R147; 20_memory.md R55). -/
def effectiveAddress (s : State) (offset : Nat) : Nat := s.i.toNat + offset

/-- The highest address of a data access, I + last, lies in Mem (60_exceptions.md R191). -/
def rangeInMem (s : State) (last : Nat) : Bool := decide (effectiveAddress s last ≤ Config.lastAddress)

/-- `(I + vx) mod 65536`, vx zero-extended (43_index_memory.md R141). -/
def indexPlus (a : Word) (vx : Byte) : Word := a + vx.setWidth 16

/-- `GLYPH_BASE + vx * 5`, all eight bits of vx used (43_index_memory.md R142). -/
def glyphAddress (vx : Byte) : Word := BitVec.ofNat 16 (Config.glyphBase + vx.toNat * Config.glyphHeight)

/-- The hundreds digit (43_index_memory.md R143). -/
def hundreds (vx : Byte) : Byte := BitVec.ofNat 8 (vx.toNat / 100)

/-- The tens digit. -/
def tens (vx : Byte) : Byte := BitVec.ofNat 8 (vx.toNat / 10 % 10)

/-- The ones digit. -/
def ones (vx : Byte) : Byte := BitVec.ofNat 8 (vx.toNat % 10)

/-- Column `col` (0 the leftmost) of a sprite row: bit 7 - col of its byte (44_display.md R152). -/
def spriteBit (b : Byte) (col : Nat) : Bool := b.getLsbD (7 - col)

/-- The first pressed key of a list of latch bits, numbered from k: an ascending scan that stops at the first found. -/
def firstPressedFrom : Nat → List Bool → Option Nat
  | _, [] => none
  | k, down :: rest => if down then some k else firstPressedFrom (k + 1) rest

/-- The least pressed key (45_keys_timers.md R162; UNVERIFIED, the spec's decision D19: log 10). -/
def firstPressed (s : State) : Option Nat := firstPressedFrom 0 s.keys.toList

/-- Vx names a key of the latch (60_exceptions.md R192). -/
def keyInRange (vx : Byte) : Bool := decide (vx.toNat ≤ 0xF)

/-- The key number in the low four bits of Vx; used only when `keyInRange` holds. -/
def keyNumber (vx : Byte) : Nibble := vx.extractLsb' 0 4

end Sys2Proof.Machine
end

