-- ==== Sys2Proof/Machine/Control.lean ====
section
/-! DEFINITION. Control transfer (40_control_transfer.md). On entry PC = pc0 + 2 (30_encoding.md R73). -/

namespace Sys2Proof.Machine

/-- `00EE` RET (R100). -/
def execRet (s : State) : Result :=
  match popReturn s with
  | none => raiseFault .stackUnderflow s
  | some (a, t) => .next (t.setPc a)

/-- `1nnn` JP nnn (R101). -/
def execJp (nnn : Addr12) (s : State) : Result := .next (s.setPc (zext16 nnn))

/-- `2nnn` CALL nnn (R102): it pushes PC, the address of the instruction after the call. -/
def execCall (nnn : Addr12) (s : State) : Result :=
  match pushReturn s.pc s with
  | none => raiseFault .stackOverflow s
  | some t => .next (t.setPc (zext16 nnn))

/-- `Bnnn` JP V0, nnn (R103). -/
def execJpV0 (nnn : Addr12) (s : State) : Result := .next (s.setPc (indexedTarget nnn (s.getV 0x0#4)))

end Sys2Proof.Machine
end

