-- ==== Sys2Proof/Machine/Flags.lean ====
section
/-! DEFINITION. Every flag computation of the instruction set (10_state.md R22, R40): what the six flag-writing instructions put
in VF, and the order of the flag write and the result write. -/

namespace Sys2Proof.Machine

/-- VF as a flag holds 0 or 1 (R22). -/
def flagByte (b : Bool) : Byte := if b then 1#8 else 0#8

/-- The carry of `8xy4`: 1 iff the sum in unbounded integers is over 255 (42_register_alu.md R126). -/
def carryFlag (vx vy : Byte) : Byte := flagByte (decide (vx.toNat + vy.toNat > 255))

/-- The no-borrow flag of `8xy5` and `8xy7`: 1 iff the minuend is strictly greater (R127, R129). -/
def noBorrowFlag (minuend subtrahend : Byte) : Byte := flagByte (decide (minuend.toNat > subtrahend.toNat))

/-- The bit that `8xy6` shifts out: bit 0 (R128). -/
def shiftedOutLow (vx : Byte) : Byte := flagByte (vx.getLsbD 0)

/-- The bit that `8xyE` shifts out: bit 7 (R130). -/
def shiftedOutHigh (vx : Byte) : Byte := flagByte (vx.getLsbD 7)

/-- The collision flag of `Dxyn` (44_display.md R152). -/
def collisionFlag (erased : Bool) : Byte := flagByte erased

/-- `V[0xF] <- flag`, then `V[x] <- result`: with x = 0xF the result stays (00_scope.md R17; log 9). -/
def writeFlagThenResult (x : Nibble) (flag result : Byte) (s : State) : State := (s.setV 0xF#4 flag).setV x result

end Sys2Proof.Machine
end

