-- ==== Sys2Proof/Machine/Display.lean ====
section
/-! DEFINITION. The pixel plane's two instructions (44_display.md). -/

namespace Sys2Proof.Machine

/-- `00E0` CLS: VF untouched (R151). -/
def execCls (s : State) : Result := .next (s.setPlane Plane.clear)

/-- The first `count` columns of one sprite row drawn, the row's leftmost pixel at (c, r) (R152). -/
def drawColumns (b : Byte) (c r : Nat) : Nat → Plane × Bool → Plane × Bool
  | 0, acc => acc
  | k + 1, acc =>
    if spriteBit b k then drawPixel (drawColumns b c r k acc) (c + k) r else drawColumns b c r k acc

/-- The first `count` rows of the sprite at `base` drawn, its top left pixel at (c, r): the plane after, and whether any toggled
cell was set before (R152). -/
def drawRows (m : Memory) (base c r : Nat) : Nat → Plane × Bool → Plane × Bool
  | 0, acc => acc
  | k + 1, acc => drawColumns (m.read (base + k)) c (r + k) 8 (drawRows m base c r k acc)

/-- The drawing of `Dxyn`, from a plane and no collision: the origin is Vx, Vy as they are on entry (log 9). -/
def drawSprite (x y n : Nibble) (s : State) : Plane × Bool :=
  drawRows s.mem s.i.toNat (s.getV x).toNat (s.getV y).toNat n.toNat (s.plane, false)

/-- The address test of `Dxyn`: none when n = 0, else I + n - 1 (R152). -/
def spriteInMem (n : Nibble) (s : State) : Bool := n.toNat == 0 || rangeInMem s (n.toNat - 1)

/-- `Dxyn` DRW Vx, Vy, n (R152). -/
def execDrw (x y n : Nibble) (s : State) : Result :=
  if spriteInMem n s then
    .next ((s.setPlane (drawSprite x y n s).1).setV 0xF#4 (collisionFlag (drawSprite x y n s).2))
  else raiseFault .dataAddressOutOfRange s

end Sys2Proof.Machine
end

