-- ==== Sys2Proof/Machine/IndexMem.lean ====
section
/-! DEFINITION. The index register and memory transfer (43_index_memory.md). The whole range is tested before the first write
(60_exceptions.md R186); I is never changed by a transfer (R146). -/

namespace Sys2Proof.Machine

/-- A data access whose highest address is I + last: Fault(DataAddressOutOfRange) when that is over 0xFFF (R191). -/
def withDataRange (last : Nat) (s : State) (access : State) : Result :=
  if rangeInMem s last then .next access else raiseFault .dataAddressOutOfRange s

/-- `Annn` LD I, nnn (R140). -/
def execLdI (nnn : Addr12) (s : State) : Result := .next (s.setI (zext16 nnn))

/-- `Fx1E` ADD I, Vx: no flag (R141). -/
def execAddI (x : Nibble) (s : State) : Result := .next (s.setI (indexPlus s.i (s.getV x)))

/-- `Fx29` LD F, Vx (R142). -/
def execLdGlyph (x : Nibble) (s : State) : Result := .next (s.setI (glyphAddress (s.getV x)))

/-- The three digits of a byte at I, I + 1, I + 2 (R143). -/
def writeDigits (vx : Byte) (s : State) : Memory :=
  ((s.mem.write (effectiveAddress s 0) (hundreds vx)).write (effectiveAddress s 1) (tens vx)).write
    (effectiveAddress s 2) (ones vx)

/-- `Fx33` LD B, Vx (R143). -/
def execBcd (x : Nibble) (s : State) : Result :=
  withDataRange 2 s (s.setMem (writeDigits (s.getV x) s))

/-- The memory after V0, V1, ... have been written at I, I + 1, ..., the first `count` of them, in that order (R144). -/
def storeFirst (s : State) : Nat → Memory
  | 0 => s.mem
  | k + 1 => (storeFirst s k).write (effectiveAddress s k) (s.getV (BitVec.ofNat 4 k))

/-- `Fx55` LD [I], Vx: V0..Vx, x inclusive (R144). -/
def execStoreRegs (x : Nibble) (s : State) : Result :=
  withDataRange x.toNat s (s.setMem (storeFirst s (x.toNat + 1)))

/-- The registers after V0, V1, ... have been read from I, I + 1, ..., the first `count` of them, in that order (R145). -/
def loadFirst (s : State) : Nat → State
  | 0 => s
  | k + 1 => (loadFirst s k).setV (BitVec.ofNat 4 k) (s.mem.read (effectiveAddress s k))

/-- `Fx65` LD Vx, [I]: V0..Vx, x inclusive (R145). -/
def execLoadRegs (x : Nibble) (s : State) : Result :=
  withDataRange x.toNat s (loadFirst s (x.toNat + 1))

end Sys2Proof.Machine
end

