-- ==== Sys2Proof/Machine/KeysTimers.lean ====
section
/-! DEFINITION. The key wait and the timer instructions (45_keys_timers.md); SKP and SKNP are in Skips.lean. -/

namespace Sys2Proof.Machine

/-- `Fx0A` LD Vx, K (R162): the least pressed key, or PC back by 2 so that the next Step fetches this word again. -/
def execWaitKey (x : Nibble) (s : State) : Result :=
  match firstPressed s with
  | some k => .next (s.setV x (BitVec.ofNat 8 k))
  | none => .next (s.setPc (s.pc - 2#16))

/-- `Fx07` LD Vx, DT (R163). -/
def execReadDt (x : Nibble) (s : State) : Result := .next (s.setV x s.dt)

/-- `Fx15` LD DT, Vx (R164). -/
def execSetDt (x : Nibble) (s : State) : Result := .next (s.setDt (s.getV x))

/-- `Fx18` LD ST, Vx (R165). -/
def execSetSt (x : Nibble) (s : State) : Result := .next (s.setSt (s.getV x))

end Sys2Proof.Machine
end

