-- ==== Sys2Proof/Machine/RegAlu.lean ====
section
/-! DEFINITION. Register load, arithmetic, logic, shifts, random (42_register_alu.md). Operands are read before any write
(00_scope.md R17); arithmetic wraps modulo 256 (R132). -/

namespace Sys2Proof.Machine

/-- `6xkk` LD Vx, kk (R120). -/
def execLdImm (x : Nibble) (kk : Byte) (s : State) : Result := .next (s.setV x kk)

/-- `7xkk` ADD Vx, kk: no flag (R121). -/
def execAddImm (x : Nibble) (kk : Byte) (s : State) : Result := .next (s.setV x (s.getV x + kk))

/-- `8xy0` LD Vx, Vy (R122). -/
def execLdReg (x y : Nibble) (s : State) : Result := .next (s.setV x (s.getV y))

/-- `8xy1` OR Vx, Vy: VF untouched (R123). -/
def execOrReg (x y : Nibble) (s : State) : Result := .next (s.setV x (s.getV x ||| s.getV y))

/-- `8xy2` AND Vx, Vy: VF untouched (R124). -/
def execAndReg (x y : Nibble) (s : State) : Result := .next (s.setV x (s.getV x &&& s.getV y))

/-- `8xy3` XOR Vx, Vy: VF untouched (R125). -/
def execXorReg (x y : Nibble) (s : State) : Result := .next (s.setV x (s.getV x ^^^ s.getV y))

/-- `8xy4` ADD Vx, Vy (R126). -/
def execAddReg (x y : Nibble) (s : State) : Result :=
  .next (writeFlagThenResult x (carryFlag (s.getV x) (s.getV y)) (s.getV x + s.getV y) s)

/-- `8xy5` SUB Vx, Vy (R127). -/
def execSubReg (x y : Nibble) (s : State) : Result :=
  .next (writeFlagThenResult x (noBorrowFlag (s.getV x) (s.getV y)) (s.getV x - s.getV y) s)

/-- `8xy6` SHR Vx: Vy is not read, for every y (R128). -/
def execShr (x _y : Nibble) (s : State) : Result :=
  .next (writeFlagThenResult x (shiftedOutLow (s.getV x)) (s.getV x >>> 1) s)

/-- `8xy7` SUBN Vx, Vy (R129). -/
def execSubnReg (x y : Nibble) (s : State) : Result :=
  .next (writeFlagThenResult x (noBorrowFlag (s.getV y) (s.getV x)) (s.getV y - s.getV x) s)

/-- `8xyE` SHL Vx: Vy is not read, for every y (R130). -/
def execShl (x _y : Nibble) (s : State) : Result :=
  .next (writeFlagThenResult x (shiftedOutHigh (s.getV x)) (s.getV x <<< 1) s)

/-- `Rand8()` (00_scope.md R15): the next free byte, and the state in which the one after it is the next. -/
def drawByte (s : State) : Byte × State := (Config.rand8 s.draws, { s with draws := s.draws + 1 })

/-- `Cxkk` RND Vx, kk (R131). -/
def execRnd (x : Nibble) (kk : Byte) (s : State) : Result := .next ((drawByte s).2.setV x (kk &&& (drawByte s).1))

end Sys2Proof.Machine
end

