-- ==== Sys2Proof/Machine/Skips.lean ====
section
/-! DEFINITION. The conditional skips (41_skips.md, and 45_keys_timers.md R160, R161). On entry PC = pc0 + 2, and `Skip()` adds
2 more (R110). -/

namespace Sys2Proof.Machine

/-- `if cond: Skip()` (R110). -/
def skipIf (cond : Bool) (s : State) : Result := .next (if cond then s.advancePc else s)

/-- `3xkk` SE Vx, kk (R111). -/
def execSeImm (x : Nibble) (kk : Byte) (s : State) : Result := skipIf (s.getV x == kk) s

/-- `4xkk` SNE Vx, kk (R112). -/
def execSneImm (x : Nibble) (kk : Byte) (s : State) : Result := skipIf (s.getV x != kk) s

/-- `5xy0` SE Vx, Vy (R113). -/
def execSeReg (x y : Nibble) (s : State) : Result := skipIf (s.getV x == s.getV y) s

/-- `9xy0` SNE Vx, Vy (R114). -/
def execSneReg (x y : Nibble) (s : State) : Result := skipIf (s.getV x != s.getV y) s

/-- The test of the key latch shared by `Ex9E` and `ExA1`: a key index above 0xF faults (R160, R161). -/
def skipOnKey (x : Nibble) (wanted : Bool) (s : State) : Result :=
  if keyInRange (s.getV x) then skipIf (s.keyDown (keyNumber (s.getV x)) == wanted) s
  else raiseFault .keyIndexOutOfRange s

/-- `Ex9E` SKP Vx (R160). -/
def execSkp (x : Nibble) (s : State) : Result := skipOnKey x true s

/-- `ExA1` SKNP Vx (R161). -/
def execSknp (x : Nibble) (s : State) : Result := skipOnKey x false s

end Sys2Proof.Machine
end

