-- ==== Sys2Proof/Machine/Unmatched.lean ====
section
/-! DEFINITION. Every word that matches none of the 34 patterns (46_unmatched_noop.md). -/

namespace Sys2Proof.Machine

/-- `.word w`: nothing; PC was already advanced by the cycle (R170). -/
def execNoop (_w : Word) (s : State) : Result := .next s

end Sys2Proof.Machine
end

