-- ==== Sys2Proof/Machine/Cycle.lean ====
section
/-! DEFINITION. The engine's one action, Step (30_encoding.md R73), and the events of all three agents. -/

namespace Sys2Proof.Machine

/-- Step (R73): nothing while halted (60_exceptions.md R187); a fetch that faults (R184); else the PC is advanced and the
decoded instruction executed. -/
def engineStep (s : State) : Result :=
  if s.halted then .next s
  else
    match fetch s with
    | none => .next (enterFault .fetchOutOfRange s.pc s)
    | some w => exec (decode w) s.advancePc

/-- One event (60_exceptions.md R196), atomic with respect to every other (20_memory.md R58). A Step before Load has the meaning
the rules give it (70_reset_and_hazards.md R215), and no Load comes after it (R213). -/
def applyEvent (e : Event) (s : State) : Result :=
  match e with
  | .step => engineStep s.closeLoad
  | .tick => .next (tick s)
  | .keySet k => .next (keySet k s)
  | .keyClear k => .next (keyClear k s)
  | .reset => .next (hostReset s)
  | .load glyphs image => load glyphs image s

/-- The event a source gives next. -/
def Source.event : Source → Event
  | .steps => .step
  | .free n => Config.freeEvent n

/-- A source after it has given an event. -/
def Source.advance : Source → Source
  | .steps => .steps
  | .free n => .free (n + 1)

/-- The next event of a schedule: the first listed one, else the source's (log 2). -/
def Schedule.next (p : Schedule) : Event :=
  match p.listed with
  | [] => p.after.event
  | e :: _ => e

/-- A schedule after its next event has been taken. -/
def Schedule.rest (p : Schedule) : Schedule :=
  match p.listed with
  | [] => { p with after := p.after.advance }
  | _ :: l => { p with listed := l }

/-- `s` with the next event taken off the schedule. -/
def State.takeEvent (s : State) : State := { s with schedule := s.schedule.rest }

/-- The next event of the schedule, on the state that has taken it (60_exceptions.md R196; 20_memory.md R58). -/
def nextEvent (s : State) : Result := applyEvent s.schedule.next s.takeEvent

/-- Where the next instruction is fetched from, were it to be: PC, or the program base when PC cannot be fetched (log 3). -/
def fetchPlace (s : State) : Word :=
  if s.pc.toNat + 1 ≤ Config.lastAddress then s.pc else BitVec.ofNat 16 Config.programBase

/-- `s` ready to run the instruction of the given number next: its bytes where the next Step fetches, that Step before all
other events, and the engine not halted (log 3). Placing a program is otherwise the Load event's. -/
def placeWord (s : State) (nbits w : Nat) : State :=
  { s with
    mem := s.mem.writeBytes (fetchPlace s).toNat (tableWordBytes nbits w)
    pc := fetchPlace s
    halted := false
    faultCause := .none
    faultPc := 0#16
    schedule := { s.schedule with listed := .step :: s.schedule.listed } }

end Sys2Proof.Machine
end

