-- ==== Sys2Proof/Machine/Ports.lean ====
section
/-! DEFINITION. What the block presents to the host between events, read-only (60_exceptions.md R200 to R202). -/

namespace Sys2Proof.Machine

/-- The pixel output port: the cell (c, r) as the latest completed event left it (R200). -/
def readPixel (s : State) (c r : Nat) : Bool := s.plane.cell c r

/-- The tone output: ST > 0 (R201); frozen while halted, since ST is (93_implementation_defined.md U17). -/
def tone (s : State) : Bool := decide (s.st.toNat > 0)

/-- The 3-bit code of a cause (10_state.md R33). -/
def causeCode : Cause → BitVec 3
  | .none => 0
  | .stackOverflow => 1
  | .stackUnderflow => 2
  | .fetchOutOfRange => 3
  | .dataAddressOutOfRange => 4
  | .keyIndexOutOfRange => 5

/-- The status output: halted, fault_cause, fault_pc (R202). -/
def status (s : State) : Bool × BitVec 3 × Word := (s.halted, causeCode s.faultCause, s.faultPc)

end Sys2Proof.Machine
end

