-- ==== Sys2Proof/Machine/Step.lean ====
section
/-! DEFINITION. One step of the machine, and the placing of a single instruction. -/

namespace Sys2Proof.Machine

/-- One step: one event of one agent (Cycle.lean). -/
def step (s : State) : Host.Outcome State Fault Refusal := nextEvent s

/-- `s` with an instruction stored where `step` fetches its next one (Cycle.lean). -/
def State.withFetchWord (s : State) (nbits w : Nat) : State := placeWord s nbits w

end Sys2Proof.Machine
end

