-- ==== Sys2Proof/Safety.lean ====
section
/-! DEFINITION. What claims are stated in: the invariant of the reachable states (10_state.md R45), when a Step faults (the table
of 60_exceptions.md R181), what a sprite covers, and the host's contract (70_reset_and_hazards.md R213 to R215). None of it is
used by the machine. -/

namespace Sys2Proof.Safety

open Sys2Proof.Machine

/-- The fault registers agree with one another: all clear while the engine runs, and a cause with fault_pc = PC while it is
halted (10_state.md R45). -/
abbrev FaultRegistersAgree (s : State) : Prop :=
  (s.halted = false → s.faultCause = .none ∧ s.faultPc = 0#16) ∧
  (s.halted = true → s.faultCause ≠ .none ∧ s.faultPc = s.pc)

/-- The invariant of the machine: the fault registers agree, Mem is in its canonical form, and a halted session is past its
Load, since only a Step halts. The other clauses of R45 are the types of the fields. -/
abbrev Inv (s : State) : Prop :=
  s.mem.wf = true ∧ FaultRegistersAgree s ∧ (s.halted = true → s.phase = .underway)

/-- A state of a run that goes well: not halted. Any claim that a program runs correctly includes it (60_exceptions.md R187). -/
abbrev Running (s : State) : Prop := s.halted = false

/-- The table of 60_exceptions.md R181 for the execute phase: which cause, if any, an instruction raises on a state, written
from the table and not from the meanings. -/
def instrFault (instr : Instr) (s : State) : Option Cause :=
  match instr with
  | .call _ => if s.sp.val = 16 then some .stackOverflow else none
  | .ret => if s.sp.val = 0 then some .stackUnderflow else none
  | .drw _ _ n => if n.toNat > 0 ∧ s.i.toNat + n.toNat - 1 > 0xFFF then some .dataAddressOutOfRange else none
  | .bcd _ => if s.i.toNat + 2 > 0xFFF then some .dataAddressOutOfRange else none
  | .storeRegs x => if s.i.toNat + x.toNat > 0xFFF then some .dataAddressOutOfRange else none
  | .loadRegs x => if s.i.toNat + x.toNat > 0xFFF then some .dataAddressOutOfRange else none
  | .skp x => if (s.getV x).toNat > 0xF then some .keyIndexOutOfRange else none
  | .sknp x => if (s.getV x).toNat > 0xF then some .keyIndexOutOfRange else none
  | .cls | .jp _ | .jpV0 _ | .seImm _ _ | .sneImm _ _ | .seReg _ _ | .sneReg _ _ | .ldImm _ _ | .addImm _ _
  | .ldReg _ _ | .orReg _ _ | .andReg _ _ | .xorReg _ _ | .addReg _ _ | .subReg _ _ | .shr _ _ | .subnReg _ _
  | .shl _ _ | .ldI _ | .rnd _ _ | .readDt _ | .waitKey _ | .setDt _ | .setSt _ | .addI _ | .ldGlyph _ | .noop _ => none

/-- The state a fault in the execute phase leaves: on entry to that phase PC is pc0 + 2, and every other write of the Step would
come after the test (60_exceptions.md R185, R186). -/
def haltedBy (cause : Cause) (s : State) : State :=
  { s with pc := s.pc - 2#16, halted := true, faultCause := cause, faultPc := s.pc - 2#16 }

/-- The registers an instruction may write, from the table of 10_state.md R41 (columns Vx, V0..Vx and VF as flag). -/
def mayWriteV (instr : Instr) (z : Nibble) : Bool :=
  match instr with
  | .ldImm x _ | .addImm x _ | .ldReg x _ | .orReg x _ | .andReg x _ | .xorReg x _ | .rnd x _ => z == x
  | .addReg x _ | .subReg x _ | .subnReg x _ | .shr x _ | .shl x _ => z == x || z == 0xF#4
  | .drw _ _ _ => z == 0xF#4
  | .readDt x | .waitKey x => z == x
  | .loadRegs x => decide (z.toNat ≤ x.toNat)
  | .cls | .ret | .jp _ | .call _ | .jpV0 _ | .seImm _ _ | .sneImm _ _ | .seReg _ _ | .sneReg _ _ | .ldI _
  | .skp _ | .sknp _ | .setDt _ | .setSt _ | .addI _ | .ldGlyph _ | .bcd _ | .storeRegs _ | .noop _ => false

/-- Whether an instruction itself writes PC, from the PC column of the table of 10_state.md R41. -/
def mayWritePc (instr : Instr) : Bool :=
  match instr with
  | .ret | .jp _ | .call _ | .jpV0 _ | .seImm _ _ | .sneImm _ _ | .seReg _ _ | .sneReg _ _ | .skp _ | .sknp _
  | .waitKey _ => true
  | .cls | .ldImm _ _ | .addImm _ _ | .ldReg _ _ | .orReg _ _ | .andReg _ _ | .xorReg _ _ | .addReg _ _ | .subReg _ _
  | .shr _ _ | .subnReg _ _ | .shl _ _ | .ldI _ | .rnd _ _ | .drw _ _ _ | .readDt _ | .setDt _ | .setSt _ | .addI _
  | .ldGlyph _ | .bcd _ | .storeRegs _ | .loadRegs _ | .noop _ => false

/-- The instruction word at PC, big-endian (20_memory.md R52); meant for PC up to 0xFFE. -/
def wordAtPc (s : State) : Word := s.mem.read s.pc.toNat ++ s.mem.read (s.pc.toNat + 1)

/-- The table of R181 for a whole Step: the fetch test first (R188). -/
def stepFault (s : State) : Option Cause :=
  if s.pc.toNat > 0xFFE then some .fetchOutOfRange else instrFault (decode (wordAtPc s)) s

/-- The sprite of `Dxyn` has a set bit that falls on the cell (c, r): some row and some column of it wrap to that cell
(44_display.md R150, R152). Columns are counted from the left, bit 7 first. -/
def SpriteCovers (s : State) (x y n : Nibble) (c r : Nat) : Prop :=
  ∃ row col, row < n.toNat ∧ col < 8 ∧
    ((s.getV x).toNat + col) % 64 = c ∧ ((s.getV y).toNat + row) % 32 = r ∧
    (s.mem.read (s.i.toNat + row)).getLsbD (7 - col) = true

/-- The first k events of a schedule. -/
def firstEvents : Nat → Schedule → List Event
  | 0, _ => []
  | k + 1, p => p.next :: firstEvents k p.rest

/-- The host's contract on a list of events (70_reset_and_hazards.md R213 to R215; 93_implementation_defined.md U13, U14): after a
Reset one Load of at most 3584 bytes, before the first Step or Tick; key events and Resets at any time. -/
def legalFrom : Phase → List Event → Bool
  | _, [] => true
  | _, .reset :: rest => legalFrom .created rest
  | ph, .keySet _ :: rest => legalFrom ph rest
  | ph, .keyClear _ :: rest => legalFrom ph rest
  | .created, .load _ image :: rest => decide (image.length ≤ Config.maxProgramBytes) && legalFrom .underway rest
  | .created, .step :: _ => false
  | .created, .tick :: _ => false
  | .underway, .load _ _ :: _ => false
  | .underway, .step :: rest => legalFrom .underway rest
  | .underway, .tick :: rest => legalFrom .underway rest

/-- The host's contract on all that is still to come, however far one looks ahead. -/
def Legal (s : State) : Prop := ∀ k, legalFrom s.phase (firstEvents k s.schedule) = true

end Sys2Proof.Safety
end

