-- ==== Sys2Proof/Certificates/Slice0/Obligations.lean ====
section
/-! DEFINITION. The statements for the provers, by file of spec/. A statement about an instruction gives its encoding, a next
state, what that state holds, and the frame: `t = { s with v := t.v }` says that every field but V is as before (all of Mem,
so every byte of it, included). The fields `draws`, `schedule` and `phase` are the model's own (logs 1, 2, 7), and so is what
a statement says of them: a step takes its event off the schedule, a Step closes the Load of the session. On entry to the execute phase PC is pc0 + 2 (30_encoding.md R73). -/

open Sys2Proof Sys2Proof.Machine Sys2Proof.Safety

/-! ## Encoding (30_encoding.md) -/

/-- No bit of an encoding is dropped: every well-formed instruction, with every operand, is read back from its word. -/
def Obligations.DecodeOfEncodeIsIdentity : Prop :=
  ∀ instr : Instr, instr.wellFormed = true → decode (encode instr) = instr

/-- The decoder is total and loses nothing: every word is the word of a well-formed instruction. -/
def Obligations.EncodeOfDecodeIsIdentity : Prop :=
  ∀ w : Word, (decode w).wellFormed = true ∧ encode (decode w) = w

/-- R74: a word is decoded by the row of the opcode map whose mask and match it meets; no word meets two; a word that meets
none is the no-op. -/
def Obligations.WordsDecodeAsTheOpcodeMapSays : Prop :=
  (∀ r ∈ opcodeTable, ∀ w : Word, w &&& r.mask = r.pattern → decode w = r.instr w) ∧
  opcodeTable.Pairwise (fun r q => ∀ w : Word, ¬ (w &&& r.mask = r.pattern ∧ w &&& q.mask = q.pattern)) ∧
  opcodeTable.length = 34 ∧
  (∀ w : Word, (∀ r ∈ opcodeTable, w &&& r.mask ≠ r.pattern) → decode w = .noop w)

/-- The four worked encodings of R80 (6005, 7003, 2300, 00EE), and six more words written out from the fields and formats of R71, R72
and the rows of R76, the last one a word that R74 leaves to the no-op. -/
def Obligations.SampleWordsDecodeToTheirInstructions : Prop :=
  decode 0x6005#16 = .ldImm 0x0#4 0x05#8 ∧ decode 0x7003#16 = .addImm 0x0#4 0x03#8 ∧
  decode 0x2300#16 = .call 0x300#12 ∧ decode 0x00EE#16 = .ret ∧ decode 0x332A#16 = .seImm 0x3#4 0x2A#8 ∧
  decode 0x8124#16 = .addReg 0x1#4 0x2#4 ∧ decode 0xF255#16 = .storeRegs 0x2#4 ∧
  decode 0xD125#16 = .drw 0x1#4 0x2#4 0x5#4 ∧ decode 0xF30A#16 = .waitKey 0x3#4 ∧ decode 0x5121#16 = .noop 0x5121#16

/-- The harness's placing of a word (log 3): the very next step fetches and runs exactly it, and all other events wait. -/
def Obligations.PlacedWordIsTheNextInstruction : Prop :=
  ∀ (s : State) (w : Word), s.mem.wf = true →
    step (s.withFetchWord 16 w.toNat) =
      exec (decode w) { s.withFetchWord 16 w.toNat with
        pc := (s.withFetchWord 16 w.toNat).pc + 2#16, schedule := s.schedule, phase := .underway }

/-! ## The instruction cycle and the schedule (30_encoding.md R73; 60_exceptions.md R196; 20_memory.md R58) -/

/-- Events come in the order of the schedule, and no event changes what is still to come: after any step the events to come are
those that came behind the one taken, as far as one looks ahead. Beyond its listed events a schedule gives Steps or the free
stream from some position, the model's rendering of any interleaving (log 2). -/
def Obligations.EventsComeInTheOrderOfTheSchedule : Prop :=
  (∀ s t : State, step s = .next t → ∀ k, firstEvents (k + 1) s.schedule = s.schedule.next :: firstEvents k t.schedule) ∧
  (∀ (l : List Event) (src : Source), firstEvents l.length { listed := l, after := src } = l) ∧
  (∀ (l : List Event) (n k : Nat), firstEvents (l.length + k) { listed := l, after := .free n } =
    l ++ (List.range k).map fun j => Config.freeEvent (n + j))

/-- A step runs the decoded instruction: when the engine's Step is next, not halted and at a fetchable PC (odd ones too), the step
is exec of what the two bytes at PC decode to, at the state with PC advanced by 2 (the schedule and the phase: logs 2, 7). -/
def Obligations.StepRunsTheDecodedInstruction : Prop :=
  ∀ (s : State) (instr : Instr), s.schedule.next = .step → s.halted = false → s.pc.toNat ≤ 0xFFE →
    decode (s.mem.read s.pc.toNat ++ s.mem.read (s.pc.toNat + 1)) = instr →
    step s = exec instr { s with pc := s.pc + 2#16, schedule := s.schedule.rest, phase := .underway }

/-- No instruction reads or writes what is still to come: with any other events behind it, a Step is the same Step (log 2). -/
def Obligations.ScheduledStepIsTheSameStep : Prop :=
  ∀ (s t : State) (p q : Schedule), p.next = .step → q.next = .step → step { s with schedule := p } = .next t →
    step { s with schedule := q } = .next { t with schedule := q.rest }

/-- Every Step answers a next state: it completes one instruction, or takes one fault, or is without effect while halted; none
blocks. That a fault is a next state is the model's choice (log 4), that it halts and stays halted the spec's decision D9
(log 13). -/
def Obligations.EveryEngineStepAnswersAState : Prop :=
  ∀ s : State, s.schedule.next = .step → ∃ t, step s = .next t ∧ t.schedule = s.schedule.rest ∧ t.phase = .underway

/-- While the host keeps its contract (R213 to R215; log 7), every step answers a next state, from which it keeps the contract
still, the phase being the one the event leads to. A fault is a next state too, by the model's choice (log 4): this says that
no legal event is refused, not that no program faults. -/
def Obligations.LegalSessionsNeverStop : Prop :=
  ∀ s : State, Legal s → ∃ t, step s = .next t ∧ Legal t ∧
    t.phase = match s.schedule.next with
      | .load _ _ => .underway
      | .reset => .created
      | .step | .tick | .keySet _ | .keyClear _ => s.phase

/-! ## Faults (60_exceptions.md; the fault policy is the spec's decisions D3 to D7 and D9, log 13) -/

/-- The table of R181, exactly and precisely: a Step faults when and only when the table says, and then nothing is changed but
the three fault registers, which the host reads with the codes of the table (R33, R202); otherwise it does not halt and
leaves those registers alone. That a fault is a next state is the model's choice (log 4). -/
def Obligations.StepFaultsExactlyAsTheTableSays : Prop :=
  ∀ s : State, s.schedule.next = .step → s.halted = false →
    (∀ cause, stepFault s = some cause → step s = .next { s with
      halted := true, faultCause := cause, faultPc := s.pc, schedule := s.schedule.rest, phase := .underway }) ∧
    (stepFault s = none → ∃ t, step s = .next t ∧ t.halted = false ∧ t.faultCause = s.faultCause ∧ t.faultPc = s.faultPc) ∧
    (stepFault s = some .stackOverflow → ∃ t, step s = .next t ∧ status t = (true, 1#3, s.pc)) ∧
    (stepFault s = some .stackUnderflow → ∃ t, step s = .next t ∧ status t = (true, 2#3, s.pc)) ∧
    (stepFault s = some .fetchOutOfRange → ∃ t, step s = .next t ∧ status t = (true, 3#3, s.pc)) ∧
    (stepFault s = some .dataAddressOutOfRange → ∃ t, step s = .next t ∧ status t = (true, 4#3, s.pc)) ∧
    (stepFault s = some .keyIndexOutOfRange → ∃ t, step s = .next t ∧ status t = (true, 5#3, s.pc)) ∧
    stepFault s ≠ some .none

/-- The halted state is terminal (R187): a step that is no Reset changes nothing but K, and K only by a key event. A Load is
refused (log 7), since a halted session is past its Load: the invariant, which every step keeps. -/
def Obligations.HaltedStateIsFrozen : Prop :=
  ∀ s t : State, Inv s → s.halted = true → s.schedule.next ≠ .reset → step s = .next t →
    t = { s with keys := t.keys, schedule := s.schedule.rest } ∧
    ((∀ k, s.schedule.next ≠ .keySet k ∧ s.schedule.next ≠ .keyClear k) → t.keys = s.keys)

/-! ## State and reset (10_state.md) -/

/-- Every step of every agent keeps the invariant: Mem canonical, the fault registers in agreement (R45), and a halted session past
its Load (log 7). -/
def Obligations.EveryStepKeepsTheInvariant : Prop :=
  ∀ s t : State, Inv s → step s = .next t → Inv t

/-- The invariant holds after reset. -/
def Obligations.ResetStateMeetsTheInvariant : Prop := Inv State.reset

/-- R38, R210: from any state, Reset gives zero everywhere and PC = 0x200. The zeros of the fault registers and that Reset can
be repeated are the spec's decision D23 (log 14). That the draws and the schedule are kept is log 2's choice. -/
def Obligations.ResetGivesTheResetValues : Prop :=
  ∀ s : State,
    (∀ x, (hostReset s).getV x = 0#8) ∧ (hostReset s).i = 0#16 ∧ (hostReset s).pc = 0x200#16 ∧
    (hostReset s).sp.val = 0 ∧ (∀ j (hj : j < 16), (hostReset s).stack[j] = 0#16) ∧
    (hostReset s).dt = 0#8 ∧ (hostReset s).st = 0#8 ∧ (∀ a, (hostReset s).mem.read a = 0#8) ∧
    (∀ c r, (hostReset s).plane.cell c r = false) ∧ (∀ k, (hostReset s).keyDown k = false) ∧
    status (hostReset s) = (false, 0#3, 0#16) ∧
    hostReset s = { State.reset with draws := s.draws, schedule := s.schedule } ∧
    (s.schedule.next = .reset → step s = .next { State.reset with draws := s.draws, schedule := s.schedule.rest })

/-- The table of R41, the register columns: an instruction changes only the V registers the table lets it write. -/
def Obligations.OnlyListedRegistersAreWritten : Prop :=
  ∀ (instr : Instr) (s t : State) (z : Nibble), exec instr s = .next t → mayWriteV instr z = false →
    t.getV z = s.getV z

/-- The table of R41, the other columns, and the fault registers of R181: each piece of state is changed only by the
instructions the table lists for it, PC (over the advance of the cycle) and the fault registers also by a fault, the key latch by
none. That an instruction leaves the model's own fields alone, but for RND the draws, is no part of that table (logs 1, 2, 7). -/
def Obligations.EachStateIsWrittenOnlyByItsInstructions : Prop :=
  ∀ (instr : Instr) (s t : State), exec instr s = .next t →
    ((∀ nnn, instr ≠ .call nnn) → instr ≠ .ret → t.sp = s.sp ∧ t.stack = s.stack) ∧
    ((∀ nnn, instr ≠ .ldI nnn) → (∀ x, instr ≠ .addI x) → (∀ x, instr ≠ .ldGlyph x) → t.i = s.i) ∧
    ((∀ x, instr ≠ .setDt x) → t.dt = s.dt) ∧
    ((∀ x, instr ≠ .setSt x) → t.st = s.st) ∧
    ((∀ x, instr ≠ .bcd x) → (∀ x, instr ≠ .storeRegs x) → ∀ a, t.mem.read a = s.mem.read a) ∧
    (instr ≠ .cls → (∀ x y n, instr ≠ .drw x y n) → ∀ c r, t.plane.cell c r = s.plane.cell c r) ∧
    (instrFault instr s = none → mayWritePc instr = false → t.pc = s.pc) ∧
    (instrFault instr s = none → t.halted = s.halted ∧ t.faultCause = s.faultCause ∧ t.faultPc = s.faultPc) ∧
    t.keys = s.keys ∧
    ((∀ x kk, instr ≠ .rnd x kk) → t.draws = s.draws) ∧ t.schedule = s.schedule ∧ t.phase = s.phase

/-- Only the key instructions read the key latch (R31, R41): any other does the same whatever a key's state is. -/
def Obligations.OnlyKeyInstructionsReadTheLatch : Prop :=
  ∀ (instr : Instr) (s t : State) (k : Nibble) (down : Bool),
    (∀ x, instr ≠ .skp x) → (∀ x, instr ≠ .sknp x) → (∀ x, instr ≠ .waitKey x) →
    exec instr s = .next t → exec instr (s.setKey k down) = .next (t.setKey k down)

/-- No instruction reads ST (R28): any that does not write it does the same whatever it holds. -/
def Obligations.NoInstructionReadsTheSoundTimer : Prop :=
  ∀ (instr : Instr) (s t : State) (b : Byte), (∀ x, instr ≠ .setSt x) →
    exec instr s = .next t → exec instr { s with st := b } = .next { t with st := b }

/-- A slot at or above SP cannot be seen (R25): with another value in it, an instruction does the same to every other part of
the state and to every slot below the new SP. -/
def Obligations.StaleStackSlotsAreInvisible : Prop :=
  ∀ (instr : Instr) (s t : State) (j : Nat) (hj : j < 16) (a : Word), s.sp.val ≤ j → exec instr s = .next t →
    ∃ u, exec instr { s with stack := s.stack.set j a hj } = .next u ∧ u = { t with stack := u.stack } ∧
      ∀ k (hk : k < 16), k < t.sp.val → u.stack[k] = t.stack[k]

/-! ## Memory (20_memory.md, 70_reset_and_hazards.md R213) -/

/-- Equal memories are equal data: canonical memories with the same bytes are the same list. -/
def Obligations.CanonicalMemoriesWithEqualBytesAreEqual : Prop :=
  ∀ m m' : Memory, m.wf = true → m'.wf = true → (∀ a, m.read a = m'.read a) → m = m'

/-- Load (R213): before any Step of the session, the glyph table at 0x050, the image at 0x200, and nothing else; a longer image is
refused (decision D21, log 7; the base 0x050 is decision D1, log 11). -/
def Obligations.LoadPlacesGlyphsAndImage : Prop :=
  ∀ (s : State) (glyphs : Vector Byte 80) (image : List Byte), s.mem.wf = true →
    s.schedule.next = .load glyphs image → s.phase = .created →
    (image.length ≤ 3584 → ∃ t, step s = .next t ∧
      (∀ j (hj : j < 80), t.mem.read (0x050 + j) = glyphs[j]) ∧
      (∀ j (hj : j < image.length), t.mem.read (0x200 + j) = image[j]) ∧
      (∀ a, (a < 0x050 ∨ 0x0A0 ≤ a) → (a < 0x200 ∨ 0x200 + image.length ≤ a) → t.mem.read a = s.mem.read a) ∧
      t = { s with mem := t.mem, schedule := s.schedule.rest, phase := .underway }) ∧
    (3584 < image.length → step s = .refused .imageTooLong)

/-- The host writes Mem once in a session and never after the first Step (R213, R214): a Load in a session that is under way is
refused; a session is under way after its Load, or after a Step, until the next Reset; and a step that is no Step leaves
Mem alone but for the one Load and for Reset. The refusal is the answer of U14 (log 7). -/
def Obligations.HostWritesMemoryOnlyByTheOneLoad : Prop :=
  (∀ (s : State) (glyphs : Vector Byte 80) (image : List Byte), s.schedule.next = .load glyphs image →
    s.phase = .underway → step s = .refused .loadNotAllowed) ∧
  (∀ s t : State, step s = .next t → (s.schedule.next = .step ∨ ∃ glyphs image, s.schedule.next = .load glyphs image) →
    t.phase = .underway) ∧
  (∀ s t : State, step s = .next t → s.phase = .underway → s.schedule.next ≠ .reset → t.phase = .underway) ∧
  (∀ s t : State, step s = .next t → s.schedule.next ≠ .step → s.schedule.next ≠ .reset →
    (s.phase = .underway ∨ ∀ glyphs image, s.schedule.next ≠ .load glyphs image) → t.mem = s.mem)

/-- A store is seen by the next fetch (R59): when LD [I], Vx has written the two bytes at the PC it goes on from, the next Step runs
the instruction those registers spell. -/
def Obligations.StoredBytesAreFetchedByTheNextStep : Prop :=
  ∀ (s t : State) (x : Nibble) (k : Nat), s.mem.wf = true → s.halted = false → s.schedule.next = .step →
    s.i.toNat + x.toNat ≤ 0xFFF → k < x.toNat → s.pc.toNat = s.i.toNat + k →
    exec (.storeRegs x) s = .next t →
    step t = exec (decode (s.getV (BitVec.ofNat 4 k) ++ s.getV (BitVec.ofNat 4 (k + 1))))
      { t with pc := t.pc + 2#16, schedule := t.schedule.rest, phase := .underway }

/-! ## Control transfer (40_control_transfer.md) -/

/-- R101: JP nnn. -/
def Obligations.JumpSetsPcToTheField : Prop :=
  (∀ w : Word, w &&& 0xF000#16 = 0x1000#16 → decode w = .jp (w.extractLsb' 0 12)) ∧
  ∀ (nnn : Addr12) (s : State), ∃ t, exec (.jp nnn) s = .next t ∧
    t.pc.toNat = nnn.toNat ∧ t = { s with pc := t.pc }

/-- R103: JP V0, nnn; the sum is not reduced. -/
def Obligations.IndexedJumpAddsV0Unreduced : Prop :=
  (∀ w : Word, w &&& 0xF000#16 = 0xB000#16 → decode w = .jpV0 (w.extractLsb' 0 12)) ∧
  ∀ (nnn : Addr12) (s : State), ∃ t, exec (.jpV0 nnn) s = .next t ∧
    t.pc.toNat = nnn.toNat + (s.getV 0x0#4).toNat ∧ t = { s with pc := t.pc }

/-- R102: CALL nnn. The fault at SP = 16 is the spec's decision D3 (log 13). -/
def Obligations.CallPushesTheReturnAddressOrOverflows : Prop :=
  (∀ w : Word, w &&& 0xF000#16 = 0x2000#16 → decode w = .call (w.extractLsb' 0 12)) ∧
  ∀ (nnn : Addr12) (s : State),
    (∀ h : s.sp.val < 16, ∃ t, exec (.call nnn) s = .next t ∧
      t.stack[s.sp.val] = s.pc ∧ (∀ j (hj : j < 16), j ≠ s.sp.val → t.stack[j] = s.stack[j]) ∧
      t.sp.val = s.sp.val + 1 ∧ t.pc.toNat = nnn.toNat ∧
      t = { s with stack := t.stack, sp := t.sp, pc := t.pc }) ∧
    (s.sp.val = 16 → exec (.call nnn) s = .next (haltedBy .stackOverflow s))

/-- R100: RET. The fault at SP = 0 is the spec's decision D4 (log 13). -/
def Obligations.ReturnPopsThePcOrUnderflows : Prop :=
  (∀ w : Word, w &&& 0xFFFF#16 = 0x00EE#16 → decode w = .ret) ∧
  ∀ s : State,
    (∀ h : 0 < s.sp.val, ∃ t, exec .ret s = .next t ∧
      t.sp.val = s.sp.val - 1 ∧ t.pc = s.stack[s.sp.val - 1]'(by omega) ∧
      t = { s with sp := t.sp, pc := t.pc }) ∧
    (s.sp.val = 0 → exec .ret s = .next (haltedBy .stackUnderflow s))

/-- A call and a return, wherever the subroutine has taken the PC, come back to the instruction after the call with the SP as it
was. -/
def Obligations.ReturnComesBackBehindTheCall : Prop :=
  ∀ (nnn : Addr12) (s t : State) (p : Word), s.sp.val < 16 → exec (.call nnn) s = .next t →
    exec .ret { t with pc := p } = .next { s with stack := t.stack }

/-! ## Skips (41_skips.md; 45_keys_timers.md R160, R161) -/

/-- R111, R112: SE and SNE on an immediate; each the complement of the other. -/
def Obligations.ImmediateSkipsCompareVxWithTheByte : Prop :=
  (∀ w : Word, w &&& 0xF000#16 = 0x3000#16 → decode w = .seImm (w.extractLsb' 8 4) (w.extractLsb' 0 8)) ∧
  (∀ w : Word, w &&& 0xF000#16 = 0x4000#16 → decode w = .sneImm (w.extractLsb' 8 4) (w.extractLsb' 0 8)) ∧
  ∀ (x : Nibble) (kk : Byte) (s : State),
    exec (.seImm x kk) s = .next { s with pc := if s.getV x = kk then s.pc + 2#16 else s.pc } ∧
    exec (.sneImm x kk) s = .next { s with pc := if s.getV x = kk then s.pc else s.pc + 2#16 }

/-- R113, R114: SE and SNE on two registers. -/
def Obligations.RegisterSkipsCompareVxWithVy : Prop :=
  (∀ w : Word, w &&& 0xF00F#16 = 0x5000#16 → decode w = .seReg (w.extractLsb' 8 4) (w.extractLsb' 4 4)) ∧
  (∀ w : Word, w &&& 0xF00F#16 = 0x9000#16 → decode w = .sneReg (w.extractLsb' 8 4) (w.extractLsb' 4 4)) ∧
  ∀ (x y : Nibble) (s : State),
    exec (.seReg x y) s = .next { s with pc := if s.getV x = s.getV y then s.pc + 2#16 else s.pc } ∧
    exec (.sneReg x y) s = .next { s with pc := if s.getV x = s.getV y then s.pc else s.pc + 2#16 }

/-- R160, R161: SKP and SKNP. The fault on Vx > 0xF is the spec's decision D7 (log 13). -/
def Obligations.KeySkipsTestTheKeyNamedByVx : Prop :=
  (∀ w : Word, w &&& 0xF0FF#16 = 0xE09E#16 → decode w = .skp (w.extractLsb' 8 4)) ∧
  (∀ w : Word, w &&& 0xF0FF#16 = 0xE0A1#16 → decode w = .sknp (w.extractLsb' 8 4)) ∧
  ∀ (x : Nibble) (s : State),
    (∀ k : Nibble, (s.getV x).toNat = k.toNat →
      exec (.skp x) s = .next { s with pc := if s.keyDown k = true then s.pc + 2#16 else s.pc } ∧
      exec (.sknp x) s = .next { s with pc := if s.keyDown k = true then s.pc else s.pc + 2#16 }) ∧
    (0xF < (s.getV x).toNat →
      exec (.skp x) s = .next (haltedBy .keyIndexOutOfRange s) ∧
      exec (.sknp x) s = .next (haltedBy .keyIndexOutOfRange s))

/-! ## Register load, arithmetic, logic, shift, random (42_register_alu.md) -/

/-- R120, R121: LD Vx, kk and ADD Vx, kk (modulo 256, VF not a flag). -/
def Obligations.ImmediateLoadAndAddWriteVxAlone : Prop :=
  (∀ w : Word, w &&& 0xF000#16 = 0x6000#16 → decode w = .ldImm (w.extractLsb' 8 4) (w.extractLsb' 0 8)) ∧
  (∀ w : Word, w &&& 0xF000#16 = 0x7000#16 → decode w = .addImm (w.extractLsb' 8 4) (w.extractLsb' 0 8)) ∧
  ∀ (x : Nibble) (kk : Byte) (s : State),
    (∃ t, exec (.ldImm x kk) s = .next t ∧ t.getV x = kk ∧
      (∀ z, z ≠ x → t.getV z = s.getV z) ∧ t = { s with v := t.v }) ∧
    (∃ t, exec (.addImm x kk) s = .next t ∧ (t.getV x).toNat = ((s.getV x).toNat + kk.toNat) % 256 ∧
      (∀ z, z ≠ x → t.getV z = s.getV z) ∧ t = { s with v := t.v })

/-- R122 to R125: LD, OR, AND, XOR on two registers, bit by bit; VF is not a flag. -/
def Obligations.CopyAndLogicWriteVxAlone : Prop :=
  (∀ w : Word, w &&& 0xF00F#16 = 0x8000#16 → decode w = .ldReg (w.extractLsb' 8 4) (w.extractLsb' 4 4)) ∧
  (∀ w : Word, w &&& 0xF00F#16 = 0x8001#16 → decode w = .orReg (w.extractLsb' 8 4) (w.extractLsb' 4 4)) ∧
  (∀ w : Word, w &&& 0xF00F#16 = 0x8002#16 → decode w = .andReg (w.extractLsb' 8 4) (w.extractLsb' 4 4)) ∧
  (∀ w : Word, w &&& 0xF00F#16 = 0x8003#16 → decode w = .xorReg (w.extractLsb' 8 4) (w.extractLsb' 4 4)) ∧
  ∀ (x y : Nibble) (s : State),
    (∃ t, exec (.ldReg x y) s = .next t ∧ t.getV x = s.getV y ∧
      (∀ z, z ≠ x → t.getV z = s.getV z) ∧ t = { s with v := t.v }) ∧
    (∃ t, exec (.orReg x y) s = .next t ∧
      (∀ b, (t.getV x).getLsbD b = true ↔ (s.getV x).getLsbD b = true ∨ (s.getV y).getLsbD b = true) ∧
      (∀ z, z ≠ x → t.getV z = s.getV z) ∧ t = { s with v := t.v }) ∧
    (∃ t, exec (.andReg x y) s = .next t ∧
      (∀ b, (t.getV x).getLsbD b = true ↔ (s.getV x).getLsbD b = true ∧ (s.getV y).getLsbD b = true) ∧
      (∀ z, z ≠ x → t.getV z = s.getV z) ∧ t = { s with v := t.v }) ∧
    (∃ t, exec (.xorReg x y) s = .next t ∧
      (∀ b, (t.getV x).getLsbD b = true ↔ (s.getV x).getLsbD b ≠ (s.getV y).getLsbD b) ∧
      (∀ z, z ≠ x → t.getV z = s.getV z) ∧ t = { s with v := t.v })

/-- R126: ADD Vx, Vy, with the carry in VF; for x = 0xF the sum stays. -/
def Obligations.AddWritesSumAndCarry : Prop :=
  (∀ w : Word, w &&& 0xF00F#16 = 0x8004#16 → decode w = .addReg (w.extractLsb' 8 4) (w.extractLsb' 4 4)) ∧
  ∀ (x y : Nibble) (s : State), ∃ t, exec (.addReg x y) s = .next t ∧
    (t.getV x).toNat = ((s.getV x).toNat + (s.getV y).toNat) % 256 ∧
    (x ≠ 0xF#4 → (t.getV 0xF#4).toNat = if (s.getV x).toNat + (s.getV y).toNat > 255 then 1 else 0) ∧
    (∀ z, z ≠ x → z ≠ 0xF#4 → t.getV z = s.getV z) ∧ t = { s with v := t.v }

/-- R127, R129: SUB and SUBN, with the strict comparison in VF. Reading both operands before VF is written, and so every case of
x or y = 0xF, is the spec's decision D8 (log 9). -/
def Obligations.SubtractionsWriteDifferenceAndStrictComparison : Prop :=
  (∀ w : Word, w &&& 0xF00F#16 = 0x8005#16 → decode w = .subReg (w.extractLsb' 8 4) (w.extractLsb' 4 4)) ∧
  (∀ w : Word, w &&& 0xF00F#16 = 0x8007#16 → decode w = .subnReg (w.extractLsb' 8 4) (w.extractLsb' 4 4)) ∧
  ∀ (x y : Nibble) (s : State),
    (∃ t, exec (.subReg x y) s = .next t ∧
      (t.getV x).toNat = ((s.getV x).toNat + 256 - (s.getV y).toNat) % 256 ∧
      (x ≠ 0xF#4 → (t.getV 0xF#4).toNat = if (s.getV x).toNat > (s.getV y).toNat then 1 else 0) ∧
      (∀ z, z ≠ x → z ≠ 0xF#4 → t.getV z = s.getV z) ∧ t = { s with v := t.v }) ∧
    (∃ t, exec (.subnReg x y) s = .next t ∧
      (t.getV x).toNat = ((s.getV y).toNat + 256 - (s.getV x).toNat) % 256 ∧
      (x ≠ 0xF#4 → (t.getV 0xF#4).toNat = if (s.getV y).toNat > (s.getV x).toNat then 1 else 0) ∧
      (∀ z, z ≠ x → z ≠ 0xF#4 → t.getV z = s.getV z) ∧ t = { s with v := t.v })

/-- R128, R130: SHR and SHL shift Vx by one bit, whatever y is, and put the lost bit in VF. The case x = 0xF is the spec's
decision D8 (log 9). -/
def Obligations.ShiftsWriteVxAndTheLostBit : Prop :=
  (∀ w : Word, w &&& 0xF00F#16 = 0x8006#16 → decode w = .shr (w.extractLsb' 8 4) (w.extractLsb' 4 4)) ∧
  (∀ w : Word, w &&& 0xF00F#16 = 0x800E#16 → decode w = .shl (w.extractLsb' 8 4) (w.extractLsb' 4 4)) ∧
  ∀ (x y : Nibble) (s : State),
    (∃ t, exec (.shr x y) s = .next t ∧ (t.getV x).toNat = (s.getV x).toNat / 2 ∧
      (x ≠ 0xF#4 → (t.getV 0xF#4).toNat = (s.getV x).toNat % 2) ∧
      (∀ z, z ≠ x → z ≠ 0xF#4 → t.getV z = s.getV z) ∧ t = { s with v := t.v }) ∧
    (∃ t, exec (.shl x y) s = .next t ∧ (t.getV x).toNat = ((s.getV x).toNat * 2) % 256 ∧
      (x ≠ 0xF#4 → (t.getV 0xF#4).toNat = (s.getV x).toNat / 128) ∧
      (∀ z, z ≠ x → z ≠ 0xF#4 → t.getV z = s.getV z) ∧ t = { s with v := t.v })

/-- R131: RND. The byte is the free value of log 1, of which nothing is known; the statement holds whatever it is. -/
def Obligations.RandomByteIsMaskedAndDrawnAfresh : Prop :=
  (∀ w : Word, w &&& 0xF000#16 = 0xC000#16 → decode w = .rnd (w.extractLsb' 8 4) (w.extractLsb' 0 8)) ∧
  ∀ (x : Nibble) (kk : Byte) (s : State), ∃ t, exec (.rnd x kk) s = .next t ∧
    (∀ b, (t.getV x).getLsbD b = true ↔ kk.getLsbD b = true ∧ (Config.rand8 s.draws).getLsbD b = true) ∧
    t.draws = s.draws + 1 ∧ (∀ z, z ≠ x → t.getV z = s.getV z) ∧ t = { s with v := t.v, draws := t.draws }

/-! ## Index register and memory (43_index_memory.md) -/

/-- R140, R141: LD I, nnn and ADD I, Vx (modulo 65536, no flag, no fault). -/
def Obligations.IndexLoadAndAddWriteIAlone : Prop :=
  (∀ w : Word, w &&& 0xF000#16 = 0xA000#16 → decode w = .ldI (w.extractLsb' 0 12)) ∧
  (∀ w : Word, w &&& 0xF0FF#16 = 0xF01E#16 → decode w = .addI (w.extractLsb' 8 4)) ∧
  ∀ (nnn : Addr12) (x : Nibble) (s : State),
    (∃ t, exec (.ldI nnn) s = .next t ∧ t.i.toNat = nnn.toNat ∧ t = { s with i := t.i }) ∧
    (∃ t, exec (.addI x) s = .next t ∧ t.i.toNat = (s.i.toNat + (s.getV x).toNat) % 65536 ∧ t = { s with i := t.i })

/-- R142: LD F, Vx, all eight bits of Vx used. The base 0x050 is the spec's decision D1 (log 11). -/
def Obligations.GlyphAddressIsBasePlusFiveTimesVx : Prop :=
  (∀ w : Word, w &&& 0xF0FF#16 = 0xF029#16 → decode w = .ldGlyph (w.extractLsb' 8 4)) ∧
  ∀ (x : Nibble) (s : State), ∃ t, exec (.ldGlyph x) s = .next t ∧
    t.i.toNat = 0x050 + (s.getV x).toNat * 5 ∧ t = { s with i := t.i }

/-- R143: LD B, Vx. The fault above 0xFFF is the spec's decision D5 (log 13). -/
def Obligations.DecimalStoreWritesThreeDigits : Prop :=
  (∀ w : Word, w &&& 0xF0FF#16 = 0xF033#16 → decode w = .bcd (w.extractLsb' 8 4)) ∧
  ∀ (x : Nibble) (s : State), s.mem.wf = true →
    (s.i.toNat + 2 ≤ 0xFFF → ∃ t, exec (.bcd x) s = .next t ∧
      (t.mem.read s.i.toNat).toNat = (s.getV x).toNat / 100 ∧
      (t.mem.read (s.i.toNat + 1)).toNat = (s.getV x).toNat / 10 % 10 ∧
      (t.mem.read (s.i.toNat + 2)).toNat = (s.getV x).toNat % 10 ∧
      (∀ a, a < s.i.toNat ∨ s.i.toNat + 2 < a → t.mem.read a = s.mem.read a) ∧
      t = { s with mem := t.mem }) ∧
    (0xFFF < s.i.toNat + 2 → exec (.bcd x) s = .next (haltedBy .dataAddressOutOfRange s))

/-- R144: LD [I], Vx, x inclusive. The fault above 0xFFF is the spec's decision D5 (log 13). -/
def Obligations.RegisterStoreWritesV0ToVx : Prop :=
  (∀ w : Word, w &&& 0xF0FF#16 = 0xF055#16 → decode w = .storeRegs (w.extractLsb' 8 4)) ∧
  ∀ (x : Nibble) (s : State), s.mem.wf = true →
    (s.i.toNat + x.toNat ≤ 0xFFF → ∃ t, exec (.storeRegs x) s = .next t ∧
      (∀ z : Nibble, z.toNat ≤ x.toNat → t.mem.read (s.i.toNat + z.toNat) = s.getV z) ∧
      (∀ a, a < s.i.toNat ∨ s.i.toNat + x.toNat < a → t.mem.read a = s.mem.read a) ∧
      t = { s with mem := t.mem }) ∧
    (0xFFF < s.i.toNat + x.toNat → exec (.storeRegs x) s = .next (haltedBy .dataAddressOutOfRange s))

/-- R145: LD Vx, [I], x inclusive. The fault above 0xFFF is the spec's decision D5 (log 13). -/
def Obligations.RegisterLoadReadsV0ToVx : Prop :=
  (∀ w : Word, w &&& 0xF0FF#16 = 0xF065#16 → decode w = .loadRegs (w.extractLsb' 8 4)) ∧
  ∀ (x : Nibble) (s : State),
    (s.i.toNat + x.toNat ≤ 0xFFF → ∃ t, exec (.loadRegs x) s = .next t ∧
      (∀ z : Nibble, t.getV z = if z.toNat ≤ x.toNat then s.mem.read (s.i.toNat + z.toNat) else s.getV z) ∧
      t = { s with v := t.v }) ∧
    (0xFFF < s.i.toNat + x.toNat → exec (.loadRegs x) s = .next (haltedBy .dataAddressOutOfRange s))

/-- The round trip of R145: a store and a load with the same x and I give back V0..Vx, whatever the registers held between. -/
def Obligations.StoreThenLoadRoundTrips : Prop :=
  ∀ (x : Nibble) (s t u : State) (v' : Vector Byte 16), s.mem.wf = true → s.i.toNat + x.toNat ≤ 0xFFF →
    exec (.storeRegs x) s = .next t → exec (.loadRegs x) { t with v := v' } = .next u →
    (∀ z : Nibble, z.toNat ≤ x.toNat → u.getV z = s.getV z) ∧ u.i = s.i ∧
    (∀ z : Nibble, x.toNat < z.toNat → u.getV z = ({ t with v := v' } : State).getV z)

/-! ## Display (44_display.md) -/

/-- R150: TogglePixel wraps, reports whether the cell was set, and flips that one cell. -/
def Obligations.TogglePixelFlipsTheWrappedCell : Prop :=
  ∀ (p : Plane) (c r : Nat),
    (togglePixel p c r).2 = p.cell (c % 64) (r % 32) ∧
    (∀ c' r', c' < 64 → r' < 32 → (togglePixel p c r).1.cell c' r' =
      if c' = c % 64 ∧ r' = r % 32 then !p.cell c' r' else p.cell c' r') ∧
    togglePixel p c r = togglePixel p (c % 64) (r % 32)

/-- R151: CLS. -/
def Obligations.ClearZeroesEveryCell : Prop :=
  (∀ w : Word, w &&& 0xFFFF#16 = 0x00E0#16 → decode w = .cls) ∧
  ∀ s : State, ∃ t, exec .cls s = .next t ∧ (∀ c r, c < 64 → r < 32 → t.plane.cell c r = false) ∧
    t = { s with plane := t.plane }

/-- R152: DRW. A cell flips exactly when a set bit of the sprite falls on it; VF is 1 exactly when one of those cells was set.
The fault is the spec's decision D5 (log 13); an origin in VF is read before VF is written, decision D8 (log 9). -/
def Obligations.DrawFlipsTheCoveredCellsAndReportsCollision : Prop :=
  (∀ w : Word, w &&& 0xF000#16 = 0xD000#16 →
    decode w = .drw (w.extractLsb' 8 4) (w.extractLsb' 4 4) (w.extractLsb' 0 4)) ∧
  ∀ (x y n : Nibble) (s : State),
    (n.toNat = 0 ∨ s.i.toNat + n.toNat - 1 ≤ 0xFFF → ∃ t, exec (.drw x y n) s = .next t ∧
      (∀ c r, c < 64 → r < 32 →
        (SpriteCovers s x y n c r → t.plane.cell c r = !s.plane.cell c r) ∧
        (¬ SpriteCovers s x y n c r → t.plane.cell c r = s.plane.cell c r)) ∧
      (t.getV 0xF#4 = 0#8 ∨ t.getV 0xF#4 = 1#8) ∧
      (t.getV 0xF#4 = 1#8 ↔ ∃ c r, c < 64 ∧ r < 32 ∧ SpriteCovers s x y n c r ∧ s.plane.cell c r = true) ∧
      (∀ z, z ≠ 0xF#4 → t.getV z = s.getV z) ∧ t = { s with v := t.v, plane := t.plane }) ∧
    (0 < n.toNat → 0xFFF < s.i.toNat + n.toNat - 1 →
      exec (.drw x y n) s = .next (haltedBy .dataAddressOutOfRange s))

/-- R153: drawing the same sprite twice at the same place restores the plane, and the second draw reports a collision exactly
when the first one turned some cell on. The origin is in registers other than VF, which the first draw writes. -/
def Obligations.DrawingTwiceRestoresThePlane : Prop :=
  ∀ (x y n : Nibble) (s t u : State), x ≠ 0xF#4 → y ≠ 0xF#4 →
    (n.toNat = 0 ∨ s.i.toNat + n.toNat - 1 ≤ 0xFFF) →
    exec (.drw x y n) s = .next t → exec (.drw x y n) t = .next u →
    u.plane = s.plane ∧
    (u.getV 0xF#4 = 1#8 ↔ ∃ c r, c < 64 ∧ r < 32 ∧ s.plane.cell c r = false ∧ t.plane.cell c r = true)

/-! ## Keys and timers (45_keys_timers.md; 60_exceptions.md R197, R199, R201) -/

/-- R162: LD Vx, K takes the least pressed key (the least is the spec's decision D19, log 10); with none pressed it only takes the PC
back, so a Step of it changes no state of the block. -/
def Obligations.KeyWaitTakesTheLeastPressedKeyOrWaits : Prop :=
  (∀ w : Word, w &&& 0xF0FF#16 = 0xF00A#16 → decode w = .waitKey (w.extractLsb' 8 4)) ∧
  (∀ (x k : Nibble) (s : State), s.keyDown k = true → (∀ j : Nibble, j.toNat < k.toNat → s.keyDown j = false) →
    ∃ t, exec (.waitKey x) s = .next t ∧ (t.getV x).toNat = k.toNat ∧
      (∀ z, z ≠ x → t.getV z = s.getV z) ∧ t = { s with v := t.v }) ∧
  (∀ (x : Nibble) (s : State), (∀ k, s.keyDown k = false) →
    exec (.waitKey x) s = .next { s with pc := s.pc - 2#16 } ∧
    (s.schedule.next = .step → s.halted = false → s.pc.toNat ≤ 0xFFE → decode (wordAtPc s) = .waitKey x →
      step s = .next { s with schedule := s.schedule.rest, phase := .underway }))

/-- R163: LD Vx, DT. -/
def Obligations.DelayTimerReadCopiesDt : Prop :=
  (∀ w : Word, w &&& 0xF0FF#16 = 0xF007#16 → decode w = .readDt (w.extractLsb' 8 4)) ∧
  ∀ (x : Nibble) (s : State), ∃ t, exec (.readDt x) s = .next t ∧ t.getV x = s.dt ∧
    (∀ z, z ≠ x → t.getV z = s.getV z) ∧ t = { s with v := t.v }

/-- R164, R165: LD DT, Vx and LD ST, Vx, the tone that follows ST, and the count N gone after N Ticks. -/
def Obligations.TimerWritesReplaceTheCount : Prop :=
  (∀ w : Word, w &&& 0xF0FF#16 = 0xF015#16 → decode w = .setDt (w.extractLsb' 8 4)) ∧
  (∀ w : Word, w &&& 0xF0FF#16 = 0xF018#16 → decode w = .setSt (w.extractLsb' 8 4)) ∧
  ∀ (x : Nibble) (s : State),
    (∃ t, exec (.setDt x) s = .next t ∧ t.dt = s.getV x ∧ t = { s with dt := t.dt } ∧
      (s.halted = false → ∀ k, (tick^[k] t).dt.toNat = (s.getV x).toNat - k)) ∧
    (∃ t, exec (.setSt x) s = .next t ∧ t.st = s.getV x ∧ t = { s with st := t.st } ∧
      (tone t = true ↔ 0 < (s.getV x).toNat) ∧
      (s.halted = false → ∀ k, (tick^[k] t).st.toNat = (s.getV x).toNat - k))

/-- R197: Tick takes 1 from each timer that is not 0 and touches nothing else; it is an event of its own, not a part of a Step. -/
def Obligations.TickDecrementsBothTimersFlooredAtZero : Prop :=
  ∀ s : State, s.schedule.next = .tick →
    ∃ t, step s = .next t ∧ t = { s with dt := t.dt, st := t.st, schedule := s.schedule.rest } ∧
      (s.halted = true → t.dt = s.dt ∧ t.st = s.st) ∧
      (s.halted = false → t.dt.toNat = s.dt.toNat - 1 ∧ t.st.toNat = s.st.toNat - 1)

/-- The two cadences are independent: a Tick before or after an instruction that neither reads nor writes a timer comes to the
same (if it does not fault, since a fault freezes the timers). -/
def Obligations.TickCommutesWithOtherInstructions : Prop :=
  ∀ (instr : Instr) (s t : State), (∀ x, instr ≠ .readDt x) → (∀ x, instr ≠ .setDt x) → (∀ x, instr ≠ .setSt x) →
    exec instr s = .next t → t.halted = false → exec instr (tick s) = .next (tick t)

/-- R199: KeySet and KeyClear write one bit of K and nothing else, halted or not; the block itself (an instruction, a Tick) never
writes K. -/
def Obligations.KeyEventsWriteOneLatchBit : Prop :=
  (∀ (instr : Instr) (s t : State), exec instr s = .next t → t.keys = s.keys) ∧
  (∀ s : State, (tick s).keys = s.keys) ∧
  ∀ (s : State) (k : Nibble),
    (s.schedule.next = .keySet k → ∃ t, step s = .next t ∧
      (∀ j, t.keyDown j = if j = k then true else s.keyDown j) ∧
      t = { s with keys := t.keys, schedule := s.schedule.rest }) ∧
    (s.schedule.next = .keyClear k → ∃ t, step s = .next t ∧
      (∀ j, t.keyDown j = if j = k then false else s.keyDown j) ∧
      t = { s with keys := t.keys, schedule := s.schedule.rest })

/-- R201: the tone is ST > 0; LD ST, Vx changes it and no other instruction does; a Tick changes it exactly when it takes ST from
1 to 0. Of all events no other changes it but a Reset (R210). The next event is the model's schedule's (log 2); that a halted Step or
Tick leaves the tone is the spec's decision D9 (log 13), that a Reset may come at any time its decision D23 (log 14). -/
def Obligations.ToneFollowsTheSoundTimer : Prop :=
  (∀ s : State, tone s = true ↔ 0 < s.st.toNat) ∧
  (∀ (x : Nibble) (s : State), ∃ t, exec (.setSt x) s = .next t ∧ (tone t = true ↔ 0 < (s.getV x).toNat)) ∧
  (∀ (instr : Instr) (s t : State), exec instr s = .next t → tone t ≠ tone s → ∃ x, instr = .setSt x) ∧
  (∀ s : State, tone (tick s) ≠ tone s ↔ s.st.toNat = 1 ∧ (tick s).st.toNat = 0) ∧
  (∀ s t : State, step s = .next t → tone t ≠ tone s →
    (s.schedule.next = .step ∧ s.halted = false ∧ ∃ x, decode (wordAtPc s) = .setSt x) ∨
    (s.schedule.next = .tick ∧ s.st.toNat = 1 ∧ t.st.toNat = 0) ∨ s.schedule.next = .reset)

/-! ## Every other word (46_unmatched_noop.md) -/

/-- A word that matches none of the 34 patterns changes the PC and nothing else of the block (R170). That its Step is then off the
schedule and the session under way is the model's choice (logs 2 and 7). -/
def Obligations.UnmatchedWordsOnlyAdvanceThePc : Prop :=
  (∀ w : Word, (∀ r ∈ opcodeTable, w &&& r.mask ≠ r.pattern) → decode w = .noop w) ∧
  (∀ (w : Word) (s : State), exec (.noop w) s = .next s) ∧
  (∀ s : State, s.schedule.next = .step → s.halted = false → s.pc.toNat ≤ 0xFFE →
    (∀ r ∈ opcodeTable, wordAtPc s &&& r.mask ≠ r.pattern) →
    step s = .next { s with pc := s.pc + 2#16, schedule := s.schedule.rest, phase := .underway })
end

