-- ==== Sys2Proof/Laws/Decode.lean ====
section
/-! SUPPORT. Fields of words: what a field of a concatenation is, that a word is the concatenation of its fields, and that a
match of a mask gives the literal nibbles. -/

namespace Sys2Proof

/-! Fields of an encoded word -/

@[simp] theorem fieldOp_encodeNnn (op : Nibble) (nnn : Addr12) : fieldOp (encodeNnn op nnn) = op := by
  apply BitVec.eq_of_getLsbD_eq
  intro j hj
  simp only [fieldOp, encodeNnn, BitVec.getLsbD_extractLsb', BitVec.getLsbD_append]
  interval_cases j <;> simp

@[simp] theorem fieldNnn_encodeNnn (op : Nibble) (nnn : Addr12) : fieldNnn (encodeNnn op nnn) = nnn := by
  apply BitVec.eq_of_getLsbD_eq
  intro j hj
  simp only [fieldNnn, encodeNnn, BitVec.getLsbD_extractLsb', BitVec.getLsbD_append]
  interval_cases j <;> simp

@[simp] theorem fieldOp_encodeXkk (op x : Nibble) (kk : Byte) : fieldOp (encodeXkk op x kk) = op := by
  apply BitVec.eq_of_getLsbD_eq
  intro j hj
  simp only [fieldOp, encodeXkk, BitVec.getLsbD_extractLsb', BitVec.getLsbD_append]
  interval_cases j <;> simp

@[simp] theorem fieldX_encodeXkk (op x : Nibble) (kk : Byte) : fieldX (encodeXkk op x kk) = x := by
  apply BitVec.eq_of_getLsbD_eq
  intro j hj
  simp only [fieldX, encodeXkk, BitVec.getLsbD_extractLsb', BitVec.getLsbD_append]
  interval_cases j <;> simp

@[simp] theorem fieldKk_encodeXkk (op x : Nibble) (kk : Byte) : fieldKk (encodeXkk op x kk) = kk := by
  apply BitVec.eq_of_getLsbD_eq
  intro j hj
  simp only [fieldKk, encodeXkk, BitVec.getLsbD_extractLsb', BitVec.getLsbD_append]
  interval_cases j <;> simp

@[simp] theorem fieldOp_encodeXyn (op x y n : Nibble) : fieldOp (encodeXyn op x y n) = op := by
  apply BitVec.eq_of_getLsbD_eq
  intro j hj
  simp only [fieldOp, encodeXyn, BitVec.getLsbD_extractLsb', BitVec.getLsbD_append]
  interval_cases j <;> simp

@[simp] theorem fieldX_encodeXyn (op x y n : Nibble) : fieldX (encodeXyn op x y n) = x := by
  apply BitVec.eq_of_getLsbD_eq
  intro j hj
  simp only [fieldX, encodeXyn, BitVec.getLsbD_extractLsb', BitVec.getLsbD_append]
  interval_cases j <;> simp

@[simp] theorem fieldY_encodeXyn (op x y n : Nibble) : fieldY (encodeXyn op x y n) = y := by
  apply BitVec.eq_of_getLsbD_eq
  intro j hj
  simp only [fieldY, encodeXyn, BitVec.getLsbD_extractLsb', BitVec.getLsbD_append]
  interval_cases j <;> simp

@[simp] theorem fieldN_encodeXyn (op x y n : Nibble) : fieldN (encodeXyn op x y n) = n := by
  apply BitVec.eq_of_getLsbD_eq
  intro j hj
  simp only [fieldN, encodeXyn, BitVec.getLsbD_extractLsb', BitVec.getLsbD_append]
  interval_cases j <;> simp

/-! A word from its fields -/

theorem encodeNnn_fields (w : Word) : encodeNnn (fieldOp w) (fieldNnn w) = w := by
  apply BitVec.eq_of_getLsbD_eq
  intro j hj
  simp only [encodeNnn, fieldOp, fieldNnn, BitVec.getLsbD_append, BitVec.getLsbD_extractLsb']
  interval_cases j <;> simp

theorem encodeXkk_fields (w : Word) : encodeXkk (fieldOp w) (fieldX w) (fieldKk w) = w := by
  apply BitVec.eq_of_getLsbD_eq
  intro j hj
  simp only [encodeXkk, fieldOp, fieldX, fieldKk, BitVec.getLsbD_append, BitVec.getLsbD_extractLsb']
  interval_cases j <;> simp

theorem encodeXyn_fields (w : Word) : encodeXyn (fieldOp w) (fieldX w) (fieldY w) (fieldN w) = w := by
  apply BitVec.eq_of_getLsbD_eq
  intro j hj
  simp only [encodeXyn, fieldOp, fieldX, fieldY, fieldN, BitVec.getLsbD_append, BitVec.getLsbD_extractLsb']
  interval_cases j <;> simp

/-- The two bytes of a word, the first the more significant, are the word. -/
@[simp] theorem wordOfBytes_hi_lo (w : Word) : wordOfBytes (hiByte w) (loByte w) = w := by
  apply BitVec.eq_of_getLsbD_eq
  intro j hj
  simp only [wordOfBytes, hiByte, loByte, BitVec.getLsbD_append, BitVec.getLsbD_extractLsb']
  interval_cases j <;> simp

/-! Literal nibbles from a match of a mask (30_encoding.md R74) -/

/-- A field of a word that a mask keeps whole is the field of the match. -/
theorem field_of_mask {w mask pattern : Word} (h : w &&& mask = pattern) (lo len : Nat)
    (hmask : mask.extractLsb' lo len = BitVec.allOnes len) : w.extractLsb' lo len = pattern.extractLsb' lo len := by
  rw [← h, BitVec.extractLsb'_and, hmask, BitVec.and_allOnes]

theorem fieldOp_of_mask {w mask pattern : Word} (h : w &&& mask = pattern) (hmask : fieldOp mask = 0xF#4) :
    fieldOp w = fieldOp pattern :=
  field_of_mask h 12 4 hmask

theorem fieldN_of_mask {w mask pattern : Word} (h : w &&& mask = pattern) (hmask : fieldN mask = 0xF#4) :
    fieldN w = fieldN pattern :=
  field_of_mask h 0 4 hmask

theorem fieldKk_of_mask {w mask pattern : Word} (h : w &&& mask = pattern) (hmask : fieldKk mask = 0xFF#8) :
    fieldKk w = fieldKk pattern :=
  field_of_mask h 0 8 hmask

end Sys2Proof
end

