-- ==== Sys2Proof/Laws/Display.lean ====
section
/-! SUPPORT. The laws of the pixel plane: a cell after a write, and what drawing columns and rows does to each cell and to the
collision. -/

namespace Sys2Proof.Machine

/-- A cell after a cell was written: coordinates wrap (44_display.md R150). -/
theorem Plane.cell_setCell (p : Plane) (c r c' r' : Nat) (b : Bool) :
    (p.setCell c r b).cell c' r' = if c' % 64 = c % 64 ∧ r' % 32 = r % 32 then b else p.cell c' r' := by
  by_cases hr : r % 32 = r' % 32
  · simp [Plane.cell, Plane.setCell, Vector.getElem_set, hr, eq_comm]
  · have hr' : ¬ r' % 32 = r % 32 := fun h => hr h.symm
    simp [Plane.cell, Plane.setCell, hr, hr']

@[simp] theorem Plane.cell_clear (c r : Nat) : Plane.clear.cell c r = false := by
  simp [Plane.cell, Plane.clear]

@[simp] theorem Plane.cell_mod (p : Plane) (c r : Nat) : p.cell (c % 64) (r % 32) = p.cell c r := by
  simp [Plane.cell]

/-- Planes with the same cells are equal. -/
theorem Plane.ext_cell {p q : Plane} (h : ∀ c r, c < 64 → r < 32 → p.cell c r = q.cell c r) : p = q := by
  refine Vector.ext fun r hr => Vector.ext fun c hc => ?_
  simpa [Plane.cell, Nat.mod_eq_of_lt hr, Nat.mod_eq_of_lt hc] using h c r hc hr

/-- One toggle flips its wrapped cell, leaves the others, and collides when the cell was set. -/
theorem drawPixel_cell (acc : Plane × Bool) (c r c' r' : Nat) :
    (drawPixel acc c r).1.cell c' r' =
      if c' % 64 = c % 64 ∧ r' % 32 = r % 32 then !acc.1.cell c r else acc.1.cell c' r' := by
  simp [drawPixel, togglePixel, Plane.cell_setCell]

theorem drawPixel_erased (acc : Plane × Bool) (c r : Nat) :
    (drawPixel acc c r).2 = (acc.2 || acc.1.cell c r) := rfl

/-- A set bit among the first `count` columns of a row falls on the cell (c', r'). -/
def ColumnHits (b : Byte) (c r count c' r' : Nat) : Prop :=
  ∃ k, k < count ∧ spriteBit b k = true ∧ c' % 64 = (c + k) % 64 ∧ r' % 32 = r % 32

/-- A set bit among the first `count` rows falls on the cell (c', r'). -/
def RowHits (m : Memory) (base c r count c' r' : Nat) : Prop :=
  ∃ j, j < count ∧ ColumnHits (m.read (base + j)) c (r + j) 8 c' r'

/-- The columns are distinct modulo 64, so each cell is flipped at most once. -/
theorem drawColumns_cell (b : Byte) (c r : Nat) {count : Nat} (hc : count ≤ 64) (acc : Plane × Bool) (c' r' : Nat) :
    (ColumnHits b c r count c' r' → (drawColumns b c r count acc).1.cell c' r' = !acc.1.cell c' r') ∧
    (¬ ColumnHits b c r count c' r' → (drawColumns b c r count acc).1.cell c' r' = acc.1.cell c' r') := by
  induction count with
  | zero => exact ⟨fun ⟨k, hk, _⟩ => absurd hk (Nat.not_lt_zero k), fun _ => rfl⟩
  | succ n ih =>
    obtain ⟨ihit, imiss⟩ := ih (by omega)
    have split_hit : ColumnHits b c r (n + 1) c' r' ↔
        ColumnHits b c r n c' r' ∨ (spriteBit b n = true ∧ c' % 64 = (c + n) % 64 ∧ r' % 32 = r % 32) := by
      constructor
      · rintro ⟨k, hk, h⟩
        rcases Nat.lt_or_ge k n with hlt | hge
        · exact .inl ⟨k, hlt, h⟩
        · obtain rfl : k = n := by omega
          exact .inr h
      · rintro (⟨k, hk, h⟩ | h)
        · exact ⟨k, by omega, h⟩
        · exact ⟨n, by omega, h⟩
    by_cases hb : spriteBit b n = true
    · simp only [drawColumns, hb, if_true, drawPixel_cell]
      by_cases hn : c' % 64 = (c + n) % 64 ∧ r' % 32 = r % 32
      · have hmiss : ¬ ColumnHits b c r n c' r' := by
          rintro ⟨k, hk, -, hk', -⟩
          omega
        have hcell : (drawColumns b c r n acc).1.cell (c + n) r = acc.1.cell c' r' := by
          rw [← imiss hmiss, ← Plane.cell_mod _ (c + n) r, ← hn.1, ← hn.2, Plane.cell_mod]
        rw [if_pos hn, hcell]
        exact ⟨fun _ => rfl, fun h => absurd (split_hit.mpr (.inr ⟨hb, hn⟩)) h⟩
      · rw [if_neg hn]
        refine ⟨fun h => ihit ?_, fun h => imiss fun h' => h (split_hit.mpr (.inl h'))⟩
        exact (split_hit.mp h).resolve_right fun h' => hn h'.2
    · rw [Bool.not_eq_true] at hb
      simp only [drawColumns, hb, Bool.false_eq_true, if_false]
      refine ⟨fun h => ihit ?_, fun h => imiss fun h' => h (split_hit.mpr (.inl h'))⟩
      exact (split_hit.mp h).resolve_right fun h' => by simp [hb] at h'

/-- A row collides when it collided before or a set bit of it meets a set cell. -/
theorem drawColumns_erased (b : Byte) (c r : Nat) {count : Nat} (hc : count ≤ 64) (acc : Plane × Bool) :
    (drawColumns b c r count acc).2 = true ↔
      acc.2 = true ∨ ∃ k, k < count ∧ spriteBit b k = true ∧ acc.1.cell (c + k) r = true := by
  induction count with
  | zero => simp [drawColumns]
  | succ n ih =>
    have hcell : (drawColumns b c r n acc).1.cell (c + n) r = acc.1.cell (c + n) r := by
      refine (drawColumns_cell b c r (by omega) acc (c + n) r).2 ?_
      rintro ⟨k, hk, -, hk', -⟩
      omega
    have last : (∃ k, k < n + 1 ∧ spriteBit b k = true ∧ acc.1.cell (c + k) r = true) ↔
        (∃ k, k < n ∧ spriteBit b k = true ∧ acc.1.cell (c + k) r = true) ∨
          (spriteBit b n = true ∧ acc.1.cell (c + n) r = true) := by
      constructor
      · rintro ⟨k, hk, h⟩
        rcases Nat.lt_or_ge k n with hlt | hge
        · exact .inl ⟨k, hlt, h⟩
        · obtain rfl : k = n := by omega
          exact .inr h
      · rintro (⟨k, hk, h⟩ | h)
        · exact ⟨k, by omega, h⟩
        · exact ⟨n, by omega, h⟩
    rw [last]
    by_cases hb : spriteBit b n = true
    · simp only [drawColumns, hb, if_true, drawPixel_erased, hcell, Bool.or_eq_true, ih (by omega), true_and, or_assoc]
    · rw [Bool.not_eq_true] at hb
      simp only [drawColumns, hb, Bool.false_eq_true, if_false, ih (by omega), false_and, or_false]

/-- The rows are distinct modulo 32, so each cell is flipped at most once: flipped when some set bit of the sprite falls on it. -/
theorem drawRows_cell (m : Memory) (base c r : Nat) {count : Nat} (hc : count ≤ 32) (acc : Plane × Bool) (c' r' : Nat) :
    (RowHits m base c r count c' r' → (drawRows m base c r count acc).1.cell c' r' = !acc.1.cell c' r') ∧
    (¬ RowHits m base c r count c' r' → (drawRows m base c r count acc).1.cell c' r' = acc.1.cell c' r') := by
  induction count with
  | zero => exact ⟨fun ⟨j, hj, _⟩ => absurd hj (Nat.not_lt_zero j), fun _ => rfl⟩
  | succ n ih =>
    obtain ⟨ihit, imiss⟩ := ih (by omega)
    obtain ⟨rowHit, rowMiss⟩ :=
      drawColumns_cell (m.read (base + n)) c (r + n) (count := 8) (by omega) (drawRows m base c r n acc) c' r'
    have split_hit : RowHits m base c r (n + 1) c' r' ↔
        RowHits m base c r n c' r' ∨ ColumnHits (m.read (base + n)) c (r + n) 8 c' r' := by
      constructor
      · rintro ⟨j, hj, h⟩
        rcases Nat.lt_or_ge j n with hlt | hge
        · exact .inl ⟨j, hlt, h⟩
        · obtain rfl : j = n := by omega
          exact .inr h
      · rintro (⟨j, hj, h⟩ | h)
        · exact ⟨j, by omega, h⟩
        · exact ⟨n, by omega, h⟩
    simp only [drawRows]
    by_cases hn : ColumnHits (m.read (base + n)) c (r + n) 8 c' r'
    · have hmiss : ¬ RowHits m base c r n c' r' := by
        obtain ⟨-, -, -, -, hrow⟩ := hn
        rintro ⟨j, hj, k, -, -, -, hj'⟩
        omega
      rw [rowHit hn, imiss hmiss]
      exact ⟨fun _ => rfl, fun h => absurd (split_hit.mpr (.inr hn)) h⟩
    · rw [rowMiss hn]
      exact ⟨fun h => ihit ((split_hit.mp h).resolve_right hn), fun h => imiss fun h' => h (split_hit.mpr (.inl h'))⟩

/-- The drawing collides when it collided before or some set bit of the sprite meets a set cell of the plane before it. -/
theorem drawRows_erased (m : Memory) (base c r : Nat) {count : Nat} (hc : count ≤ 32) (acc : Plane × Bool) :
    (drawRows m base c r count acc).2 = true ↔
      acc.2 = true ∨ ∃ j, j < count ∧ ∃ k, k < 8 ∧ spriteBit (m.read (base + j)) k = true ∧
        acc.1.cell (c + k) (r + j) = true := by
  induction count with
  | zero => simp [drawRows]
  | succ n ih =>
    have hcell : ∀ k, (drawRows m base c r n acc).1.cell (c + k) (r + n) = acc.1.cell (c + k) (r + n) := by
      intro k
      refine (drawRows_cell m base c r (by omega) acc (c + k) (r + n)).2 ?_
      rintro ⟨j, hj, k', -, -, -, hj'⟩
      omega
    rw [drawRows, drawColumns_erased _ _ _ (by omega), ih (by omega), or_assoc]
    simp only [hcell]
    refine or_congr_right ⟨?_, ?_⟩
    · rintro (⟨j, hj, h⟩ | h)
      · exact ⟨j, by omega, h⟩
      · exact ⟨n, by omega, h⟩
    · rintro ⟨j, hj, h⟩
      rcases Nat.lt_or_ge j n with hlt | hge
      · exact .inl ⟨j, hlt, h⟩
      · obtain rfl : j = n := by omega
        exact .inr h

end Sys2Proof.Machine
end

