-- ==== Sys2Proof/Laws/Memory.lean ====
section
/-! SUPPORT. The laws of Mem: reads after writes, and every operation keeps the canonical form. -/

namespace Sys2Proof.Machine

@[simp] theorem Memory.read_nil (a : Nat) : Memory.read [] a = 0#8 := rfl

/-- A write leaves every other byte alone. -/
theorem Memory.read_write_other (m : Memory) {a z : Nat} (b : Byte) (h : z ≠ a) :
    (m.write a b).read z = m.read z := by
  induction m with
  | nil =>
    by_cases hb : b = 0#8 <;> simp [Memory.write, Memory.read, hb, h]
  | cons cell m ih =>
    obtain ⟨a', b'⟩ := cell
    simp only [Memory.write]
    split
    · split <;> simp [Memory.read, h]
    · split
      · rename_i hlt heq
        subst heq
        split <;> simp [Memory.read, h]
      · simp [Memory.read, ih]

/-- Below the lowest listed address every byte is 0. -/
theorem Memory.read_below {m : Memory} {lo a : Nat} (hm : Memory.wfFrom lo m = true) (ha : a < lo) : m.read a = 0#8 := by
  induction m generalizing lo with
  | nil => rfl
  | cons cell m ih =>
    obtain ⟨a', b'⟩ := cell
    simp only [Memory.wfFrom, Bool.and_eq_true, decide_eq_true_eq] at hm
    obtain ⟨⟨⟨hlo, -⟩, -⟩, hrest⟩ := hm
    rw [Memory.read, if_neg (by omega)]
    exact ih hrest (by omega)

/-- A read after a write to the same byte gives the byte written, in a canonical memory. -/
theorem Memory.read_write_same {m : Memory} {lo : Nat} (hm : Memory.wfFrom lo m = true) (a : Nat) (b : Byte) :
    (m.write a b).read a = b := by
  induction m generalizing lo with
  | nil => by_cases hb : b = 0#8 <;> simp [Memory.write, Memory.read, hb]
  | cons cell m ih =>
    obtain ⟨a', b'⟩ := cell
    have hm' := hm
    simp only [Memory.wfFrom, Bool.and_eq_true, decide_eq_true_eq] at hm
    obtain ⟨⟨⟨hlo, -⟩, -⟩, hrest⟩ := hm
    simp only [Memory.write]
    split
    · rename_i hlt
      split
      · rename_i hb
        rw [hb, Memory.read, if_neg (by omega)]
        exact Memory.read_below hrest (by omega)
      · simp [Memory.read]
    · split
      · rename_i heq
        split
        · rename_i hb
          rw [hb]
          exact Memory.read_below hrest (by omega)
        · simp [Memory.read]
      · rename_i hne
        rw [Memory.read, if_neg hne]
        exact ih hrest

theorem Memory.wfFrom_mono {m : Memory} {lo lo' : Nat} (hle : lo' ≤ lo) (hm : Memory.wfFrom lo m = true) :
    Memory.wfFrom lo' m = true := by
  cases m with
  | nil => rfl
  | cons cell m =>
    obtain ⟨a', b'⟩ := cell
    simp only [Memory.wfFrom, Bool.and_eq_true, decide_eq_true_eq] at hm ⊢
    exact ⟨⟨⟨by omega, hm.1.1.2⟩, hm.1.2⟩, hm.2⟩

theorem Memory.wfFrom_write {m : Memory} {lo a : Nat} (hm : Memory.wfFrom lo m = true) (hlo : lo ≤ a)
    (ha : a < Config.memSize) (b : Byte) : Memory.wfFrom lo (m.write a b) = true := by
  induction m generalizing lo with
  | nil => by_cases hb : b = 0#8 <;> simp [Memory.write, Memory.wfFrom, hb, hlo, ha]
  | cons cell m ih =>
    obtain ⟨a', b'⟩ := cell
    simp only [Memory.wfFrom, Bool.and_eq_true, decide_eq_true_eq] at hm
    obtain ⟨⟨⟨hlo', ha'⟩, hb'⟩, hrest⟩ := hm
    simp only [Memory.write]
    split
    · split
      · simp only [Memory.wfFrom, Bool.and_eq_true, decide_eq_true_eq]
        exact ⟨⟨⟨hlo', ha'⟩, hb'⟩, hrest⟩
      · rename_i hb
        simp only [Memory.wfFrom, Bool.and_eq_true, decide_eq_true_eq, bne_iff_ne, ne_eq]
        exact ⟨⟨⟨hlo, ha⟩, hb⟩, ⟨⟨by omega, ha'⟩, by simpa using hb'⟩, hrest⟩
    · split
      · rename_i heq
        subst heq
        split
        · exact Memory.wfFrom_mono (by omega) hrest
        · rename_i hb
          simp only [Memory.wfFrom, Bool.and_eq_true, decide_eq_true_eq, bne_iff_ne, ne_eq]
          exact ⟨⟨⟨hlo, ha⟩, hb⟩, hrest⟩
      · simp only [Memory.wfFrom, Bool.and_eq_true, decide_eq_true_eq]
        exact ⟨⟨⟨hlo', ha'⟩, hb'⟩, ih hrest (by omega)⟩

/-- A write inside Mem keeps the canonical form. -/
theorem Memory.wf_write {m : Memory} {a : Nat} (hm : m.wf = true) (ha : a < Config.memSize) (b : Byte) :
    (m.write a b).wf = true :=
  Memory.wfFrom_write hm (Nat.zero_le a) ha b

/-- A run of writes inside Mem keeps the canonical form. -/
theorem Memory.wf_writeBytes {m : Memory} (hm : m.wf = true) {base : Nat} {bytes : List Byte}
    (h : base + bytes.length ≤ Config.memSize) : (m.writeBytes base bytes).wf = true := by
  induction bytes generalizing m base with
  | nil => exact hm
  | cons b bytes ih =>
    simp only [List.length_cons] at h
    exact ih (Memory.wf_write hm (by omega) b) (by omega)

/-- A run of writes leaves every byte outside it alone. -/
theorem Memory.read_writeBytes_outside (m : Memory) {base z : Nat} {bytes : List Byte}
    (h : z < base ∨ base + bytes.length ≤ z) : (m.writeBytes base bytes).read z = m.read z := by
  induction bytes generalizing m base with
  | nil => rfl
  | cons b bytes ih =>
    simp only [List.length_cons] at h
    rw [Memory.writeBytes, ih _ (by omega), Memory.read_write_other _ _ (by omega)]

/-- A run of writes inside Mem puts its bytes where it says. -/
theorem Memory.read_writeBytes_inside {m : Memory} (hm : m.wf = true) {base k : Nat} {bytes : List Byte}
    (h : base + bytes.length ≤ Config.memSize) (hk : k < bytes.length) :
    (m.writeBytes base bytes).read (base + k) = bytes[k] := by
  induction bytes generalizing m base k with
  | nil => simp at hk
  | cons b bytes ih =>
    simp only [List.length_cons] at h hk
    rw [Memory.writeBytes]
    cases k with
    | zero =>
      rw [Memory.read_writeBytes_outside _ (by omega)]
      exact Memory.read_write_same hm _ b
    | succ k =>
      have := ih (Memory.wf_write hm (a := base) (by omega) b) (base := base + 1) (k := k) (by omega) (by omega)
      simpa [Nat.add_assoc, Nat.add_comm 1 k] using this

theorem Memory.wf_reset : State.reset.mem.wf = true := rfl

end Sys2Proof.Machine
end

