-- ==== Sys2Proof/Laws/State.lean ====
section
/-! SUPPORT. For every named update of the state, what each field is after it: all by rfl, all simp lemmas. -/

namespace Sys2Proof.Machine

/-! setV -/

@[simp] theorem State.setV_v (s : State) (x : Nibble) (b : Byte) : (s.setV x b).v = s.v.set x.toNat b x.isLt := rfl
@[simp] theorem State.setV_i (s : State) (x : Nibble) (b : Byte) : (s.setV x b).i = s.i := rfl
@[simp] theorem State.setV_pc (s : State) (x : Nibble) (b : Byte) : (s.setV x b).pc = s.pc := rfl
@[simp] theorem State.setV_stack (s : State) (x : Nibble) (b : Byte) : (s.setV x b).stack = s.stack := rfl
@[simp] theorem State.setV_sp (s : State) (x : Nibble) (b : Byte) : (s.setV x b).sp = s.sp := rfl
@[simp] theorem State.setV_dt (s : State) (x : Nibble) (b : Byte) : (s.setV x b).dt = s.dt := rfl
@[simp] theorem State.setV_st (s : State) (x : Nibble) (b : Byte) : (s.setV x b).st = s.st := rfl
@[simp] theorem State.setV_mem (s : State) (x : Nibble) (b : Byte) : (s.setV x b).mem = s.mem := rfl
@[simp] theorem State.setV_plane (s : State) (x : Nibble) (b : Byte) : (s.setV x b).plane = s.plane := rfl
@[simp] theorem State.setV_keys (s : State) (x : Nibble) (b : Byte) : (s.setV x b).keys = s.keys := rfl
@[simp] theorem State.setV_halted (s : State) (x : Nibble) (b : Byte) : (s.setV x b).halted = s.halted := rfl
@[simp] theorem State.setV_faultCause (s : State) (x : Nibble) (b : Byte) : (s.setV x b).faultCause = s.faultCause := rfl
@[simp] theorem State.setV_faultPc (s : State) (x : Nibble) (b : Byte) : (s.setV x b).faultPc = s.faultPc := rfl
@[simp] theorem State.setV_draws (s : State) (x : Nibble) (b : Byte) : (s.setV x b).draws = s.draws := rfl
@[simp] theorem State.setV_schedule (s : State) (x : Nibble) (b : Byte) : (s.setV x b).schedule = s.schedule := rfl
@[simp] theorem State.setV_phase (s : State) (x : Nibble) (b : Byte) : (s.setV x b).phase = s.phase := rfl
@[simp] theorem State.setV_keyDown (s : State) (x : Nibble) (b : Byte) (z : Nibble) : (s.setV x b).keyDown z = s.keyDown z := rfl

/-! setI -/

@[simp] theorem State.setI_v (s : State) (a : Word) : (s.setI a).v = s.v := rfl
@[simp] theorem State.setI_i (s : State) (a : Word) : (s.setI a).i = a := rfl
@[simp] theorem State.setI_pc (s : State) (a : Word) : (s.setI a).pc = s.pc := rfl
@[simp] theorem State.setI_stack (s : State) (a : Word) : (s.setI a).stack = s.stack := rfl
@[simp] theorem State.setI_sp (s : State) (a : Word) : (s.setI a).sp = s.sp := rfl
@[simp] theorem State.setI_dt (s : State) (a : Word) : (s.setI a).dt = s.dt := rfl
@[simp] theorem State.setI_st (s : State) (a : Word) : (s.setI a).st = s.st := rfl
@[simp] theorem State.setI_mem (s : State) (a : Word) : (s.setI a).mem = s.mem := rfl
@[simp] theorem State.setI_plane (s : State) (a : Word) : (s.setI a).plane = s.plane := rfl
@[simp] theorem State.setI_keys (s : State) (a : Word) : (s.setI a).keys = s.keys := rfl
@[simp] theorem State.setI_halted (s : State) (a : Word) : (s.setI a).halted = s.halted := rfl
@[simp] theorem State.setI_faultCause (s : State) (a : Word) : (s.setI a).faultCause = s.faultCause := rfl
@[simp] theorem State.setI_faultPc (s : State) (a : Word) : (s.setI a).faultPc = s.faultPc := rfl
@[simp] theorem State.setI_draws (s : State) (a : Word) : (s.setI a).draws = s.draws := rfl
@[simp] theorem State.setI_schedule (s : State) (a : Word) : (s.setI a).schedule = s.schedule := rfl
@[simp] theorem State.setI_phase (s : State) (a : Word) : (s.setI a).phase = s.phase := rfl
@[simp] theorem State.setI_getV (s : State) (a : Word) (z : Nibble) : (s.setI a).getV z = s.getV z := rfl
@[simp] theorem State.setI_keyDown (s : State) (a : Word) (z : Nibble) : (s.setI a).keyDown z = s.keyDown z := rfl

/-! setPc -/

@[simp] theorem State.setPc_v (s : State) (a : Word) : (s.setPc a).v = s.v := rfl
@[simp] theorem State.setPc_i (s : State) (a : Word) : (s.setPc a).i = s.i := rfl
@[simp] theorem State.setPc_pc (s : State) (a : Word) : (s.setPc a).pc = a := rfl
@[simp] theorem State.setPc_stack (s : State) (a : Word) : (s.setPc a).stack = s.stack := rfl
@[simp] theorem State.setPc_sp (s : State) (a : Word) : (s.setPc a).sp = s.sp := rfl
@[simp] theorem State.setPc_dt (s : State) (a : Word) : (s.setPc a).dt = s.dt := rfl
@[simp] theorem State.setPc_st (s : State) (a : Word) : (s.setPc a).st = s.st := rfl
@[simp] theorem State.setPc_mem (s : State) (a : Word) : (s.setPc a).mem = s.mem := rfl
@[simp] theorem State.setPc_plane (s : State) (a : Word) : (s.setPc a).plane = s.plane := rfl
@[simp] theorem State.setPc_keys (s : State) (a : Word) : (s.setPc a).keys = s.keys := rfl
@[simp] theorem State.setPc_halted (s : State) (a : Word) : (s.setPc a).halted = s.halted := rfl
@[simp] theorem State.setPc_faultCause (s : State) (a : Word) : (s.setPc a).faultCause = s.faultCause := rfl
@[simp] theorem State.setPc_faultPc (s : State) (a : Word) : (s.setPc a).faultPc = s.faultPc := rfl
@[simp] theorem State.setPc_draws (s : State) (a : Word) : (s.setPc a).draws = s.draws := rfl
@[simp] theorem State.setPc_schedule (s : State) (a : Word) : (s.setPc a).schedule = s.schedule := rfl
@[simp] theorem State.setPc_phase (s : State) (a : Word) : (s.setPc a).phase = s.phase := rfl
@[simp] theorem State.setPc_getV (s : State) (a : Word) (z : Nibble) : (s.setPc a).getV z = s.getV z := rfl
@[simp] theorem State.setPc_keyDown (s : State) (a : Word) (z : Nibble) : (s.setPc a).keyDown z = s.keyDown z := rfl

/-! setDt -/

@[simp] theorem State.setDt_v (s : State) (b : Byte) : (s.setDt b).v = s.v := rfl
@[simp] theorem State.setDt_i (s : State) (b : Byte) : (s.setDt b).i = s.i := rfl
@[simp] theorem State.setDt_pc (s : State) (b : Byte) : (s.setDt b).pc = s.pc := rfl
@[simp] theorem State.setDt_stack (s : State) (b : Byte) : (s.setDt b).stack = s.stack := rfl
@[simp] theorem State.setDt_sp (s : State) (b : Byte) : (s.setDt b).sp = s.sp := rfl
@[simp] theorem State.setDt_dt (s : State) (b : Byte) : (s.setDt b).dt = b := rfl
@[simp] theorem State.setDt_st (s : State) (b : Byte) : (s.setDt b).st = s.st := rfl
@[simp] theorem State.setDt_mem (s : State) (b : Byte) : (s.setDt b).mem = s.mem := rfl
@[simp] theorem State.setDt_plane (s : State) (b : Byte) : (s.setDt b).plane = s.plane := rfl
@[simp] theorem State.setDt_keys (s : State) (b : Byte) : (s.setDt b).keys = s.keys := rfl
@[simp] theorem State.setDt_halted (s : State) (b : Byte) : (s.setDt b).halted = s.halted := rfl
@[simp] theorem State.setDt_faultCause (s : State) (b : Byte) : (s.setDt b).faultCause = s.faultCause := rfl
@[simp] theorem State.setDt_faultPc (s : State) (b : Byte) : (s.setDt b).faultPc = s.faultPc := rfl
@[simp] theorem State.setDt_draws (s : State) (b : Byte) : (s.setDt b).draws = s.draws := rfl
@[simp] theorem State.setDt_schedule (s : State) (b : Byte) : (s.setDt b).schedule = s.schedule := rfl
@[simp] theorem State.setDt_phase (s : State) (b : Byte) : (s.setDt b).phase = s.phase := rfl
@[simp] theorem State.setDt_getV (s : State) (b : Byte) (z : Nibble) : (s.setDt b).getV z = s.getV z := rfl
@[simp] theorem State.setDt_keyDown (s : State) (b : Byte) (z : Nibble) : (s.setDt b).keyDown z = s.keyDown z := rfl

/-! setSt -/

@[simp] theorem State.setSt_v (s : State) (b : Byte) : (s.setSt b).v = s.v := rfl
@[simp] theorem State.setSt_i (s : State) (b : Byte) : (s.setSt b).i = s.i := rfl
@[simp] theorem State.setSt_pc (s : State) (b : Byte) : (s.setSt b).pc = s.pc := rfl
@[simp] theorem State.setSt_stack (s : State) (b : Byte) : (s.setSt b).stack = s.stack := rfl
@[simp] theorem State.setSt_sp (s : State) (b : Byte) : (s.setSt b).sp = s.sp := rfl
@[simp] theorem State.setSt_dt (s : State) (b : Byte) : (s.setSt b).dt = s.dt := rfl
@[simp] theorem State.setSt_st (s : State) (b : Byte) : (s.setSt b).st = b := rfl
@[simp] theorem State.setSt_mem (s : State) (b : Byte) : (s.setSt b).mem = s.mem := rfl
@[simp] theorem State.setSt_plane (s : State) (b : Byte) : (s.setSt b).plane = s.plane := rfl
@[simp] theorem State.setSt_keys (s : State) (b : Byte) : (s.setSt b).keys = s.keys := rfl
@[simp] theorem State.setSt_halted (s : State) (b : Byte) : (s.setSt b).halted = s.halted := rfl
@[simp] theorem State.setSt_faultCause (s : State) (b : Byte) : (s.setSt b).faultCause = s.faultCause := rfl
@[simp] theorem State.setSt_faultPc (s : State) (b : Byte) : (s.setSt b).faultPc = s.faultPc := rfl
@[simp] theorem State.setSt_draws (s : State) (b : Byte) : (s.setSt b).draws = s.draws := rfl
@[simp] theorem State.setSt_schedule (s : State) (b : Byte) : (s.setSt b).schedule = s.schedule := rfl
@[simp] theorem State.setSt_phase (s : State) (b : Byte) : (s.setSt b).phase = s.phase := rfl
@[simp] theorem State.setSt_getV (s : State) (b : Byte) (z : Nibble) : (s.setSt b).getV z = s.getV z := rfl
@[simp] theorem State.setSt_keyDown (s : State) (b : Byte) (z : Nibble) : (s.setSt b).keyDown z = s.keyDown z := rfl

/-! setMem -/

@[simp] theorem State.setMem_v (s : State) (m : Memory) : (s.setMem m).v = s.v := rfl
@[simp] theorem State.setMem_i (s : State) (m : Memory) : (s.setMem m).i = s.i := rfl
@[simp] theorem State.setMem_pc (s : State) (m : Memory) : (s.setMem m).pc = s.pc := rfl
@[simp] theorem State.setMem_stack (s : State) (m : Memory) : (s.setMem m).stack = s.stack := rfl
@[simp] theorem State.setMem_sp (s : State) (m : Memory) : (s.setMem m).sp = s.sp := rfl
@[simp] theorem State.setMem_dt (s : State) (m : Memory) : (s.setMem m).dt = s.dt := rfl
@[simp] theorem State.setMem_st (s : State) (m : Memory) : (s.setMem m).st = s.st := rfl
@[simp] theorem State.setMem_mem (s : State) (m : Memory) : (s.setMem m).mem = m := rfl
@[simp] theorem State.setMem_plane (s : State) (m : Memory) : (s.setMem m).plane = s.plane := rfl
@[simp] theorem State.setMem_keys (s : State) (m : Memory) : (s.setMem m).keys = s.keys := rfl
@[simp] theorem State.setMem_halted (s : State) (m : Memory) : (s.setMem m).halted = s.halted := rfl
@[simp] theorem State.setMem_faultCause (s : State) (m : Memory) : (s.setMem m).faultCause = s.faultCause := rfl
@[simp] theorem State.setMem_faultPc (s : State) (m : Memory) : (s.setMem m).faultPc = s.faultPc := rfl
@[simp] theorem State.setMem_draws (s : State) (m : Memory) : (s.setMem m).draws = s.draws := rfl
@[simp] theorem State.setMem_schedule (s : State) (m : Memory) : (s.setMem m).schedule = s.schedule := rfl
@[simp] theorem State.setMem_phase (s : State) (m : Memory) : (s.setMem m).phase = s.phase := rfl
@[simp] theorem State.setMem_getV (s : State) (m : Memory) (z : Nibble) : (s.setMem m).getV z = s.getV z := rfl
@[simp] theorem State.setMem_keyDown (s : State) (m : Memory) (z : Nibble) : (s.setMem m).keyDown z = s.keyDown z := rfl

/-! setPlane -/

@[simp] theorem State.setPlane_v (s : State) (p : Plane) : (s.setPlane p).v = s.v := rfl
@[simp] theorem State.setPlane_i (s : State) (p : Plane) : (s.setPlane p).i = s.i := rfl
@[simp] theorem State.setPlane_pc (s : State) (p : Plane) : (s.setPlane p).pc = s.pc := rfl
@[simp] theorem State.setPlane_stack (s : State) (p : Plane) : (s.setPlane p).stack = s.stack := rfl
@[simp] theorem State.setPlane_sp (s : State) (p : Plane) : (s.setPlane p).sp = s.sp := rfl
@[simp] theorem State.setPlane_dt (s : State) (p : Plane) : (s.setPlane p).dt = s.dt := rfl
@[simp] theorem State.setPlane_st (s : State) (p : Plane) : (s.setPlane p).st = s.st := rfl
@[simp] theorem State.setPlane_mem (s : State) (p : Plane) : (s.setPlane p).mem = s.mem := rfl
@[simp] theorem State.setPlane_plane (s : State) (p : Plane) : (s.setPlane p).plane = p := rfl
@[simp] theorem State.setPlane_keys (s : State) (p : Plane) : (s.setPlane p).keys = s.keys := rfl
@[simp] theorem State.setPlane_halted (s : State) (p : Plane) : (s.setPlane p).halted = s.halted := rfl
@[simp] theorem State.setPlane_faultCause (s : State) (p : Plane) : (s.setPlane p).faultCause = s.faultCause := rfl
@[simp] theorem State.setPlane_faultPc (s : State) (p : Plane) : (s.setPlane p).faultPc = s.faultPc := rfl
@[simp] theorem State.setPlane_draws (s : State) (p : Plane) : (s.setPlane p).draws = s.draws := rfl
@[simp] theorem State.setPlane_schedule (s : State) (p : Plane) : (s.setPlane p).schedule = s.schedule := rfl
@[simp] theorem State.setPlane_phase (s : State) (p : Plane) : (s.setPlane p).phase = s.phase := rfl
@[simp] theorem State.setPlane_getV (s : State) (p : Plane) (z : Nibble) : (s.setPlane p).getV z = s.getV z := rfl
@[simp] theorem State.setPlane_keyDown (s : State) (p : Plane) (z : Nibble) : (s.setPlane p).keyDown z = s.keyDown z := rfl

/-! setKey -/

@[simp] theorem State.setKey_v (s : State) (k : Nibble) (b : Bool) : (s.setKey k b).v = s.v := rfl
@[simp] theorem State.setKey_i (s : State) (k : Nibble) (b : Bool) : (s.setKey k b).i = s.i := rfl
@[simp] theorem State.setKey_pc (s : State) (k : Nibble) (b : Bool) : (s.setKey k b).pc = s.pc := rfl
@[simp] theorem State.setKey_stack (s : State) (k : Nibble) (b : Bool) : (s.setKey k b).stack = s.stack := rfl
@[simp] theorem State.setKey_sp (s : State) (k : Nibble) (b : Bool) : (s.setKey k b).sp = s.sp := rfl
@[simp] theorem State.setKey_dt (s : State) (k : Nibble) (b : Bool) : (s.setKey k b).dt = s.dt := rfl
@[simp] theorem State.setKey_st (s : State) (k : Nibble) (b : Bool) : (s.setKey k b).st = s.st := rfl
@[simp] theorem State.setKey_mem (s : State) (k : Nibble) (b : Bool) : (s.setKey k b).mem = s.mem := rfl
@[simp] theorem State.setKey_plane (s : State) (k : Nibble) (b : Bool) : (s.setKey k b).plane = s.plane := rfl
@[simp] theorem State.setKey_keys (s : State) (k : Nibble) (b : Bool) : (s.setKey k b).keys = s.keys.set k.toNat b k.isLt := rfl
@[simp] theorem State.setKey_halted (s : State) (k : Nibble) (b : Bool) : (s.setKey k b).halted = s.halted := rfl
@[simp] theorem State.setKey_faultCause (s : State) (k : Nibble) (b : Bool) : (s.setKey k b).faultCause = s.faultCause := rfl
@[simp] theorem State.setKey_faultPc (s : State) (k : Nibble) (b : Bool) : (s.setKey k b).faultPc = s.faultPc := rfl
@[simp] theorem State.setKey_draws (s : State) (k : Nibble) (b : Bool) : (s.setKey k b).draws = s.draws := rfl
@[simp] theorem State.setKey_schedule (s : State) (k : Nibble) (b : Bool) : (s.setKey k b).schedule = s.schedule := rfl
@[simp] theorem State.setKey_phase (s : State) (k : Nibble) (b : Bool) : (s.setKey k b).phase = s.phase := rfl
@[simp] theorem State.setKey_getV (s : State) (k : Nibble) (b : Bool) (z : Nibble) : (s.setKey k b).getV z = s.getV z := rfl

/-! advancePc -/

@[simp] theorem State.advancePc_v (s : State) : s.advancePc.v = s.v := rfl
@[simp] theorem State.advancePc_i (s : State) : s.advancePc.i = s.i := rfl
@[simp] theorem State.advancePc_pc (s : State) : s.advancePc.pc = s.pc + 2#16 := rfl
@[simp] theorem State.advancePc_stack (s : State) : s.advancePc.stack = s.stack := rfl
@[simp] theorem State.advancePc_sp (s : State) : s.advancePc.sp = s.sp := rfl
@[simp] theorem State.advancePc_dt (s : State) : s.advancePc.dt = s.dt := rfl
@[simp] theorem State.advancePc_st (s : State) : s.advancePc.st = s.st := rfl
@[simp] theorem State.advancePc_mem (s : State) : s.advancePc.mem = s.mem := rfl
@[simp] theorem State.advancePc_plane (s : State) : s.advancePc.plane = s.plane := rfl
@[simp] theorem State.advancePc_keys (s : State) : s.advancePc.keys = s.keys := rfl
@[simp] theorem State.advancePc_halted (s : State) : s.advancePc.halted = s.halted := rfl
@[simp] theorem State.advancePc_faultCause (s : State) : s.advancePc.faultCause = s.faultCause := rfl
@[simp] theorem State.advancePc_faultPc (s : State) : s.advancePc.faultPc = s.faultPc := rfl
@[simp] theorem State.advancePc_draws (s : State) : s.advancePc.draws = s.draws := rfl
@[simp] theorem State.advancePc_schedule (s : State) : s.advancePc.schedule = s.schedule := rfl
@[simp] theorem State.advancePc_phase (s : State) : s.advancePc.phase = s.phase := rfl
@[simp] theorem State.advancePc_getV (s : State) (z : Nibble) : s.advancePc.getV z = s.getV z := rfl
@[simp] theorem State.advancePc_keyDown (s : State) (z : Nibble) : s.advancePc.keyDown z = s.keyDown z := rfl

/-! enterFault -/

@[simp] theorem enterFault_v (s : State) (c : Cause) (a : Word) : (enterFault c a s).v = s.v := rfl
@[simp] theorem enterFault_i (s : State) (c : Cause) (a : Word) : (enterFault c a s).i = s.i := rfl
@[simp] theorem enterFault_pc (s : State) (c : Cause) (a : Word) : (enterFault c a s).pc = a := rfl
@[simp] theorem enterFault_stack (s : State) (c : Cause) (a : Word) : (enterFault c a s).stack = s.stack := rfl
@[simp] theorem enterFault_sp (s : State) (c : Cause) (a : Word) : (enterFault c a s).sp = s.sp := rfl
@[simp] theorem enterFault_dt (s : State) (c : Cause) (a : Word) : (enterFault c a s).dt = s.dt := rfl
@[simp] theorem enterFault_st (s : State) (c : Cause) (a : Word) : (enterFault c a s).st = s.st := rfl
@[simp] theorem enterFault_mem (s : State) (c : Cause) (a : Word) : (enterFault c a s).mem = s.mem := rfl
@[simp] theorem enterFault_plane (s : State) (c : Cause) (a : Word) : (enterFault c a s).plane = s.plane := rfl
@[simp] theorem enterFault_keys (s : State) (c : Cause) (a : Word) : (enterFault c a s).keys = s.keys := rfl
@[simp] theorem enterFault_halted (s : State) (c : Cause) (a : Word) : (enterFault c a s).halted = true := rfl
@[simp] theorem enterFault_faultCause (s : State) (c : Cause) (a : Word) : (enterFault c a s).faultCause = c := rfl
@[simp] theorem enterFault_faultPc (s : State) (c : Cause) (a : Word) : (enterFault c a s).faultPc = a := rfl
@[simp] theorem enterFault_draws (s : State) (c : Cause) (a : Word) : (enterFault c a s).draws = s.draws := rfl
@[simp] theorem enterFault_schedule (s : State) (c : Cause) (a : Word) : (enterFault c a s).schedule = s.schedule := rfl
@[simp] theorem enterFault_phase (s : State) (c : Cause) (a : Word) : (enterFault c a s).phase = s.phase := rfl
@[simp] theorem enterFault_getV (s : State) (c : Cause) (a : Word) (z : Nibble) : (enterFault c a s).getV z = s.getV z := rfl
@[simp] theorem enterFault_keyDown (s : State) (c : Cause) (a : Word) (z : Nibble) : (enterFault c a s).keyDown z = s.keyDown z := rfl

/-! closeLoad -/

@[simp] theorem State.closeLoad_v (s : State) : s.closeLoad.v = s.v := rfl
@[simp] theorem State.closeLoad_i (s : State) : s.closeLoad.i = s.i := rfl
@[simp] theorem State.closeLoad_pc (s : State) : s.closeLoad.pc = s.pc := rfl
@[simp] theorem State.closeLoad_stack (s : State) : s.closeLoad.stack = s.stack := rfl
@[simp] theorem State.closeLoad_sp (s : State) : s.closeLoad.sp = s.sp := rfl
@[simp] theorem State.closeLoad_dt (s : State) : s.closeLoad.dt = s.dt := rfl
@[simp] theorem State.closeLoad_st (s : State) : s.closeLoad.st = s.st := rfl
@[simp] theorem State.closeLoad_mem (s : State) : s.closeLoad.mem = s.mem := rfl
@[simp] theorem State.closeLoad_plane (s : State) : s.closeLoad.plane = s.plane := rfl
@[simp] theorem State.closeLoad_keys (s : State) : s.closeLoad.keys = s.keys := rfl
@[simp] theorem State.closeLoad_halted (s : State) : s.closeLoad.halted = s.halted := rfl
@[simp] theorem State.closeLoad_faultCause (s : State) : s.closeLoad.faultCause = s.faultCause := rfl
@[simp] theorem State.closeLoad_faultPc (s : State) : s.closeLoad.faultPc = s.faultPc := rfl
@[simp] theorem State.closeLoad_draws (s : State) : s.closeLoad.draws = s.draws := rfl
@[simp] theorem State.closeLoad_schedule (s : State) : s.closeLoad.schedule = s.schedule := rfl
@[simp] theorem State.closeLoad_phase (s : State) : s.closeLoad.phase = .underway := rfl
@[simp] theorem State.closeLoad_getV (s : State) (z : Nibble) : s.closeLoad.getV z = s.getV z := rfl
@[simp] theorem State.closeLoad_keyDown (s : State) (z : Nibble) : s.closeLoad.keyDown z = s.keyDown z := rfl

/-! takeEvent -/

@[simp] theorem State.takeEvent_v (s : State) : s.takeEvent.v = s.v := rfl
@[simp] theorem State.takeEvent_i (s : State) : s.takeEvent.i = s.i := rfl
@[simp] theorem State.takeEvent_pc (s : State) : s.takeEvent.pc = s.pc := rfl
@[simp] theorem State.takeEvent_stack (s : State) : s.takeEvent.stack = s.stack := rfl
@[simp] theorem State.takeEvent_sp (s : State) : s.takeEvent.sp = s.sp := rfl
@[simp] theorem State.takeEvent_dt (s : State) : s.takeEvent.dt = s.dt := rfl
@[simp] theorem State.takeEvent_st (s : State) : s.takeEvent.st = s.st := rfl
@[simp] theorem State.takeEvent_mem (s : State) : s.takeEvent.mem = s.mem := rfl
@[simp] theorem State.takeEvent_plane (s : State) : s.takeEvent.plane = s.plane := rfl
@[simp] theorem State.takeEvent_keys (s : State) : s.takeEvent.keys = s.keys := rfl
@[simp] theorem State.takeEvent_halted (s : State) : s.takeEvent.halted = s.halted := rfl
@[simp] theorem State.takeEvent_faultCause (s : State) : s.takeEvent.faultCause = s.faultCause := rfl
@[simp] theorem State.takeEvent_faultPc (s : State) : s.takeEvent.faultPc = s.faultPc := rfl
@[simp] theorem State.takeEvent_draws (s : State) : s.takeEvent.draws = s.draws := rfl
@[simp] theorem State.takeEvent_schedule (s : State) : s.takeEvent.schedule = s.schedule.rest := rfl
@[simp] theorem State.takeEvent_phase (s : State) : s.takeEvent.phase = s.phase := rfl
@[simp] theorem State.takeEvent_getV (s : State) (z : Nibble) : s.takeEvent.getV z = s.getV z := rfl
@[simp] theorem State.takeEvent_keyDown (s : State) (z : Nibble) : s.takeEvent.keyDown z = s.keyDown z := rfl

/-! Reading a register after writing one -/

theorem State.getV_setV (s : State) (x z : Nibble) (b : Byte) :
    (s.setV x b).getV z = if z = x then b else s.getV z := by
  simp only [State.getV, State.setV, Vector.getElem_set, BitVec.toNat_inj, eq_comm]

@[simp] theorem State.getV_setV_same (s : State) (x : Nibble) (b : Byte) : (s.setV x b).getV x = b := by
  simp [State.getV_setV]

theorem State.getV_setV_other (s : State) {x z : Nibble} (b : Byte) (h : z ≠ x) :
    (s.setV x b).getV z = s.getV z := by
  simp [State.getV_setV, h]

/-- Two states that agree on every register and on every other field are equal. -/
theorem State.ext_getV {s t : State} (hv : ∀ z, s.getV z = t.getV z) (ht : t = { s with v := t.v }) : s = t := by
  have hvv : s.v = t.v := by
    refine Vector.ext fun k hk => ?_
    simpa [State.getV, Nat.mod_eq_of_lt hk] using hv (BitVec.ofNat 4 k)
  rw [ht, ← hvv]

/-! Reading a key after writing one -/

theorem State.keyDown_setKey (s : State) (k z : Nibble) (b : Bool) :
    (s.setKey k b).keyDown z = if z = k then b else s.keyDown z := by
  simp only [State.keyDown, State.setKey, Vector.getElem_set, BitVec.toNat_inj, eq_comm]

end Sys2Proof.Machine
end

