-- ==== Sys2Proof/Laws/Ops.lean ====
section
/-! SUPPORT. One lemma per shared operation, saying everything it can do. -/

namespace Sys2Proof.Machine

@[simp] theorem lastAddress_eq : Config.lastAddress = 0xFFF := rfl
@[simp] theorem memSize_eq : Config.memSize = 4096 := rfl
@[simp] theorem programBase_eq : Config.programBase = 0x200 := rfl
@[simp] theorem maxProgramBytes_eq : Config.maxProgramBytes = 3584 := rfl
@[simp] theorem glyphBase_eq : Config.glyphBase = 0x050 := rfl
@[simp] theorem glyphHeight_eq : Config.glyphHeight = 5 := rfl

/-! Faults and skips -/

/-- Raising a fault answers one next state: the entry of R185. -/
theorem raiseFault_next_iff {c : Cause} {s t : State} :
    raiseFault c s = .next t ↔ t = enterFault c (s.pc - 2#16) s := by
  simp [raiseFault, eq_comm]

/-- A conditional skip answers one next state, in which PC alone may differ. -/
theorem skipIf_next_iff {cond : Bool} {s t : State} :
    skipIf cond s = .next t ↔ t = s.setPc (if cond then s.pc + 2#16 else s.pc) := by
  cases cond <;> exact ⟨fun h => (Host.Outcome.next.inj h).symm, fun h => h ▸ rfl⟩

/-- A key skip: in range it is a skip on the latch bit, else a fault. -/
theorem skipOnKey_cases (x : Nibble) (wanted : Bool) (s : State) :
    (keyInRange (s.getV x) = true ∧
      skipOnKey x wanted s = skipIf (s.keyDown (keyNumber (s.getV x)) == wanted) s) ∨
    (keyInRange (s.getV x) = false ∧ skipOnKey x wanted s = raiseFault .keyIndexOutOfRange s) := by
  unfold skipOnKey
  cases keyInRange (s.getV x) <;> simp

/-- A ranged access: the access inside Mem, a fault outside. -/
theorem withDataRange_cases (last : Nat) (s access : State) :
    (s.i.toNat + last ≤ 0xFFF ∧ withDataRange last s access = .next access) ∨
    (0xFFF < s.i.toNat + last ∧ withDataRange last s access = raiseFault .dataAddressOutOfRange s) := by
  rcases Nat.lt_or_ge 0xFFF (s.i.toNat + last) with h | h
  · exact .inr ⟨h, by simp [withDataRange, rangeInMem, effectiveAddress, Nat.not_le.mpr h]⟩
  · exact .inl ⟨h, by simp [withDataRange, rangeInMem, effectiveAddress, h]⟩

/-! Flags -/

/-- The flag write comes first and the result write second, so the result stays when they meet. -/
theorem writeFlagThenResult_getV (x z : Nibble) (flag result : Byte) (s : State) :
    (writeFlagThenResult x flag result s).getV z =
      if z = x then result else if z = 0xF#4 then flag else s.getV z := by
  simp [writeFlagThenResult, State.getV_setV]

/-- Nothing but V is written. -/
theorem writeFlagThenResult_frame (x : Nibble) (flag result : Byte) (s : State) :
    writeFlagThenResult x flag result s = { s with v := (writeFlagThenResult x flag result s).v } := rfl

/-! The call stack -/

/-- A push succeeds below 16 and only there. -/
theorem pushReturn_cases (a : Word) (s : State) :
    (∃ h : s.sp.val < 16, pushReturn a s =
      some { s with stack := s.stack.set s.sp.val a h, sp := ⟨s.sp.val + 1, by omega⟩ }) ∨
    (s.sp.val = 16 ∧ pushReturn a s = none) := by
  unfold pushReturn
  split
  · rename_i h; exact .inl ⟨h, rfl⟩
  · exact .inr ⟨by omega, rfl⟩

/-- A pop succeeds above 0 and only there. -/
theorem popReturn_cases (s : State) :
    (∃ h : 0 < s.sp.val, popReturn s =
      some (s.stack[s.sp.val - 1]'(by omega), { s with sp := ⟨s.sp.val - 1, by omega⟩ })) ∨
    (s.sp.val = 0 ∧ popReturn s = none) := by
  unfold popReturn
  split
  · rename_i h; exact .inl ⟨h, rfl⟩
  · exact .inr ⟨by omega, rfl⟩

/-! Fetch -/

/-- A fetch succeeds up to 0xFFE and only there. -/
theorem fetch_cases (s : State) :
    (s.pc.toNat ≤ 0xFFE ∧
      fetch s = some (wordOfBytes (s.mem.read s.pc.toNat) (s.mem.read (s.pc.toNat + 1)))) ∨
    (0xFFE < s.pc.toNat ∧ fetch s = none) := by
  unfold fetch
  split <;> rename_i h <;> simp only [lastAddress_eq] at h
  · exact .inl ⟨by omega, rfl⟩
  · exact .inr ⟨by omega, rfl⟩

/-! The key scan -/

/-- A scan that finds k: k is pressed, and no key before it is. -/
theorem firstPressedFrom_some {latch : List Bool} {lo k : Nat} (h : firstPressedFrom lo latch = some k) :
    ∃ j, k = lo + j ∧ latch[j]? = some true ∧ ∀ i < j, latch[i]? = some false := by
  induction latch generalizing lo with
  | nil => simp [firstPressedFrom] at h
  | cons down latch ih =>
    unfold firstPressedFrom at h
    split at h
    · rename_i hd
      exact ⟨0, by simpa using h.symm, by simp [hd], by simp⟩
    · rename_i hd
      obtain ⟨j, rfl, hj, hlt⟩ := ih h
      refine ⟨j + 1, by omega, by simpa using hj, fun i hi => ?_⟩
      cases i with
      | zero => simpa using hd
      | succ i => simpa using hlt i (by omega)

/-- A scan that finds nothing: no key is pressed. -/
theorem firstPressedFrom_none {latch : List Bool} {lo : Nat} (h : firstPressedFrom lo latch = none) :
    ∀ b ∈ latch, b = false := by
  induction latch generalizing lo with
  | nil => simp
  | cons down latch ih =>
    unfold firstPressedFrom at h
    split at h
    · simp at h
    · rename_i hd
      simpa [hd] using ih h

/-- The key that `Fx0A` takes: a pressed key, with none pressed below it. -/
theorem firstPressed_some {s : State} {k : Nat} (h : firstPressed s = some k) :
    ∃ hk : k < 16, s.keys[k] = true ∧ ∀ j (hj : j < 16), j < k → s.keys[j] = false := by
  obtain ⟨j, rfl, hj, hlt⟩ := firstPressedFrom_some h
  simp only [Nat.zero_add]
  have hj16 : j < 16 := by
    have := (List.getElem?_eq_some_iff.mp hj).1
    simpa using this
  refine ⟨hj16, by simpa [hj16] using hj, fun i hi hij => ?_⟩
  simpa [hi] using hlt i hij

/-- `Fx0A` waits only when no key is pressed. -/
theorem firstPressed_none {s : State} (h : firstPressed s = none) : ∀ j (hj : j < 16), s.keys[j] = false := by
  intro j hj
  exact firstPressedFrom_none h _ (by simp)

/-! The memory transfers -/

/-- The first `count` registers stored: register k at I + k. -/
theorem storeFirst_read_inside {s : State} (hm : s.mem.wf = true) {count k : Nat}
    (hr : s.i.toNat + count ≤ 4096) (hk : k < count) :
    (storeFirst s count).wf = true ∧
      (storeFirst s count).read (s.i.toNat + k) = s.getV (BitVec.ofNat 4 k) := by
  induction count generalizing k with
  | zero => omega
  | succ n ih =>
    have hwf : (storeFirst s n).wf = true := by
      cases n with
      | zero => exact hm
      | succ n => exact (ih (k := 0) (by omega) (by omega)).1
    refine ⟨Memory.wf_write hwf (by simp [effectiveAddress]; omega) _, ?_⟩
    simp only [storeFirst, effectiveAddress]
    rcases Nat.lt_or_ge k n with hlt | hge
    · rw [Memory.read_write_other _ _ (by omega)]
      exact (ih (by omega) hlt).2
    · obtain rfl : k = n := by omega
      exact Memory.read_write_same hwf _ _

/-- Storing registers leaves every byte outside the stored range alone. -/
theorem storeFirst_read_outside (s : State) {count z : Nat} (h : z < s.i.toNat ∨ s.i.toNat + count ≤ z) :
    (storeFirst s count).read z = s.mem.read z := by
  induction count with
  | zero => rfl
  | succ n ih =>
    rw [storeFirst, effectiveAddress, Memory.read_write_other _ _ (by omega), ih (by omega)]

/-- Storing registers inside Mem keeps the canonical form. -/
theorem storeFirst_wf {s : State} (hm : s.mem.wf = true) {count : Nat} (hr : s.i.toNat + count ≤ 4096) :
    (storeFirst s count).wf = true := by
  cases count with
  | zero => exact hm
  | succ n => exact (storeFirst_read_inside hm hr (Nat.succ_pos n)).1

/-- Loading registers: register k below the count comes from I + k, the others are kept. -/
theorem loadFirst_getV (s : State) {count : Nat} (hc : count ≤ 16) (z : Nibble) :
    (loadFirst s count).getV z = if z.toNat < count then s.mem.read (s.i.toNat + z.toNat) else s.getV z := by
  induction count with
  | zero => simp [loadFirst]
  | succ n ih =>
    rw [loadFirst, State.getV_setV, ih (by omega)]
    have hz : (z = BitVec.ofNat 4 n) ↔ z.toNat = n := by
      rw [← BitVec.toNat_inj, BitVec.toNat_ofNat, Nat.mod_eq_of_lt (by omega)]
    by_cases h : z.toNat = n
    · simp [hz, h, effectiveAddress]
    · simp only [hz, h, if_false]
      exact if_congr (by omega) rfl rfl

/-- Loading registers writes nothing but V. -/
theorem loadFirst_frame (s : State) (count : Nat) : loadFirst s count = { s with v := (loadFirst s count).v } := by
  induction count with
  | zero => rfl
  | succ n ih => rw [loadFirst, ih]; rfl

/-- The three digits are written inside Mem, so the canonical form is kept. -/
theorem writeDigits_wf {s : State} (hm : s.mem.wf = true) (hr : s.i.toNat + 2 ≤ 0xFFF) (vx : Byte) :
    (writeDigits vx s).wf = true := by
  simp only [writeDigits, effectiveAddress]
  exact Memory.wf_write (Memory.wf_write (Memory.wf_write hm (by simp; omega) _) (by simp; omega) _) (by simp; omega) _

/-- Writing the digits leaves every other byte alone. -/
theorem writeDigits_read_outside (s : State) (vx : Byte) {z : Nat} (h : z < s.i.toNat ∨ s.i.toNat + 2 < z) :
    (writeDigits vx s).read z = s.mem.read z := by
  simp only [writeDigits, effectiveAddress]
  rw [Memory.read_write_other _ _ (by omega), Memory.read_write_other _ _ (by omega),
    Memory.read_write_other _ _ (by omega)]

/-! One step -/

/-- A step is the schedule's next event, on the state that has taken it. -/
theorem step_eq (s : State) : step s = applyEvent s.schedule.next s.takeEvent := rfl

/-- When a Step is next, a step is the engine's. -/
theorem step_of_step {s : State} (h : s.schedule.next = .step) : step s = engineStep s.takeEvent.closeLoad := by
  rw [step_eq, h]; rfl

/-- When another event is next, a step is that event. -/
theorem step_of_event {s : State} {e : Event} (h : s.schedule.next = e) : step s = applyEvent e s.takeEvent := by
  rw [step_eq, h]

/-- What a Load can do: write the two ranges and close, or be refused. -/
theorem load_cases (glyphs : Vector Byte 80) (image : List Byte) (s : State) :
    (s.phase = .created ∧ image.length ≤ 3584 ∧ load glyphs image s = .next (loadImage glyphs image s).closeLoad) ∨
    (s.phase = .created ∧ 3584 < image.length ∧ load glyphs image s = .refused .imageTooLong) ∨
    (s.phase = .underway ∧ load glyphs image s = .refused .loadNotAllowed) := by
  unfold load
  cases s.phase with
  | underway => exact .inr (.inr ⟨rfl, rfl⟩)
  | created =>
    by_cases h : image.length ≤ 3584
    · exact .inl ⟨rfl, h, if_pos h⟩
    · exact .inr (.inl ⟨rfl, by omega, if_neg h⟩)

/-- The three things a Step can do (30_encoding.md R73). -/
theorem engineStep_cases (s : State) :
    (s.halted = true ∧ engineStep s = .next s) ∨
    (s.halted = false ∧ 0xFFE < s.pc.toNat ∧ engineStep s = .next (enterFault .fetchOutOfRange s.pc s)) ∨
    (s.halted = false ∧ s.pc.toNat ≤ 0xFFE ∧ engineStep s =
      exec (decode (wordOfBytes (s.mem.read s.pc.toNat) (s.mem.read (s.pc.toNat + 1)))) s.advancePc) := by
  unfold engineStep
  cases hh : s.halted
  · rcases fetch_cases s with ⟨hp, hf⟩ | ⟨hp, hf⟩
    · exact .inr (.inr ⟨rfl, hp, by simp [hf]⟩)
    · exact .inr (.inl ⟨rfl, hp, by simp [hf]⟩)
  · exact .inl ⟨rfl, by simp⟩

end Sys2Proof.Machine
end

