-- ==== Sys2Proof/Laws/Exec.lean ====
section
/-! SUPPORT. One inversion lemma per meaning that has more than one case: which state it answers, and when. Every other meaning is
one `.next` of a named update. -/

namespace Sys2Proof.Machine

open Sys2Proof.Safety

/-- Raising a fault in the execute phase is the state the claims call `haltedBy`. -/
theorem raiseFault_eq (c : Cause) (s : State) : raiseFault c s = .next (haltedBy c s) := rfl

theorem execCall_cases (nnn : Addr12) (s : State) :
    (∃ h : s.sp.val < 16, execCall nnn s = .next { s with
        stack := s.stack.set s.sp.val s.pc h, sp := ⟨s.sp.val + 1, by omega⟩, pc := zext16 nnn }) ∨
    (s.sp.val = 16 ∧ execCall nnn s = .next (haltedBy .stackOverflow s)) := by
  unfold execCall
  rcases pushReturn_cases s.pc s with ⟨h, e⟩ | ⟨h, e⟩ <;> rw [e]
  · exact .inl ⟨h, rfl⟩
  · exact .inr ⟨h, rfl⟩

theorem execRet_cases (s : State) :
    (∃ h : 0 < s.sp.val, execRet s = .next { s with
        sp := ⟨s.sp.val - 1, by omega⟩, pc := s.stack[s.sp.val - 1]'(by omega) }) ∨
    (s.sp.val = 0 ∧ execRet s = .next (haltedBy .stackUnderflow s)) := by
  unfold execRet
  rcases popReturn_cases s with ⟨h, e⟩ | ⟨h, e⟩ <;> rw [e]
  · exact .inl ⟨h, rfl⟩
  · exact .inr ⟨h, rfl⟩

theorem skipOnKey_eq (x : Nibble) (wanted : Bool) (s : State) :
    ((s.getV x).toNat ≤ 0xF ∧ skipOnKey x wanted s = .next (s.setPc
        (if s.keyDown (keyNumber (s.getV x)) = wanted then s.pc + 2#16 else s.pc))) ∨
    (0xF < (s.getV x).toNat ∧ skipOnKey x wanted s = .next (haltedBy .keyIndexOutOfRange s)) := by
  rcases skipOnKey_cases x wanted s with ⟨h, e⟩ | ⟨h, e⟩ <;> simp only [keyInRange, decide_eq_true_eq, decide_eq_false_iff_not] at h
  · refine .inl ⟨h, ?_⟩
    rw [e, skipIf_next_iff]
    simp only [beq_iff_eq]
  · exact .inr ⟨by omega, e⟩

theorem execBcd_cases (x : Nibble) (s : State) :
    (s.i.toNat + 2 ≤ 0xFFF ∧ execBcd x s = .next { s with mem := writeDigits (s.getV x) s }) ∨
    (0xFFF < s.i.toNat + 2 ∧ execBcd x s = .next (haltedBy .dataAddressOutOfRange s)) :=
  withDataRange_cases 2 s _

theorem execStoreRegs_cases (x : Nibble) (s : State) :
    (s.i.toNat + x.toNat ≤ 0xFFF ∧ execStoreRegs x s = .next { s with mem := storeFirst s (x.toNat + 1) }) ∨
    (0xFFF < s.i.toNat + x.toNat ∧ execStoreRegs x s = .next (haltedBy .dataAddressOutOfRange s)) :=
  withDataRange_cases x.toNat s _

theorem execLoadRegs_cases (x : Nibble) (s : State) :
    (s.i.toNat + x.toNat ≤ 0xFFF ∧
      execLoadRegs x s = .next { s with v := (loadFirst s (x.toNat + 1)).v }) ∨
    (0xFFF < s.i.toNat + x.toNat ∧ execLoadRegs x s = .next (haltedBy .dataAddressOutOfRange s)) := by
  rw [← loadFirst_frame]
  exact withDataRange_cases x.toNat s _

theorem execDrw_cases (x y n : Nibble) (s : State) :
    ((n.toNat = 0 ∨ s.i.toNat + n.toNat - 1 ≤ 0xFFF) ∧ execDrw x y n s = .next { s with
        plane := (drawSprite x y n s).1, v := (s.setV 0xF#4 (collisionFlag (drawSprite x y n s).2)).v }) ∨
    ((0 < n.toNat ∧ 0xFFF < s.i.toNat + n.toNat - 1) ∧
      execDrw x y n s = .next (haltedBy .dataAddressOutOfRange s)) := by
  unfold execDrw
  have hin : spriteInMem n s = true ↔ n.toNat = 0 ∨ s.i.toNat + n.toNat - 1 ≤ 0xFFF := by
    unfold spriteInMem rangeInMem effectiveAddress
    rw [Bool.or_eq_true, beq_iff_eq, decide_eq_true_iff, lastAddress_eq]
    omega
  split <;> rename_i h <;> rw [hin] at h
  · exact .inl ⟨h, rfl⟩
  · exact .inr ⟨by omega, rfl⟩

theorem execWaitKey_cases (x : Nibble) (s : State) :
    (∃ k, firstPressed s = some k ∧ execWaitKey x s = .next (s.setV x (BitVec.ofNat 8 k))) ∨
    (firstPressed s = none ∧ execWaitKey x s = .next (s.setPc (s.pc - 2#16))) := by
  unfold execWaitKey
  cases h : firstPressed s with
  | none => exact .inr ⟨rfl, rfl⟩
  | some k => exact .inl ⟨k, rfl, rfl⟩

/-- The sprite's set bits over the rows and columns drawn are the cells the claims say it covers. -/
theorem rowHits_iff_spriteCovers (s : State) (x y n : Nibble) {c r : Nat} (hc : c < 64) (hr : r < 32) :
    RowHits s.mem s.i.toNat (s.getV x).toNat (s.getV y).toNat n.toNat c r ↔ SpriteCovers s x y n c r := by
  constructor
  · rintro ⟨j, hj, k, hk, hb, h1, h2⟩
    exact ⟨j, k, hj, hk, by omega, by omega, hb⟩
  · rintro ⟨j, k, hj, hk, h1, h2, hb⟩
    exact ⟨j, hj, k, hk, hb, by omega, by omega⟩

/-- All that `exec` can do to the fault registers and to the model's own order of events: by the table of 60_exceptions.md R181,
fault with the cause it names, or leave them alone. -/
theorem exec_cases (instr : Instr) (s : State) :
    (instrFault instr s = none ∧ ∃ t, exec instr s = .next t ∧ t.halted = s.halted ∧ t.faultCause = s.faultCause ∧
      t.faultPc = s.faultPc ∧ t.schedule = s.schedule ∧ t.phase = s.phase) ∨
    (∃ c, instrFault instr s = some c ∧ exec instr s = .next (haltedBy c s)) := by
  cases instr
  case call nnn =>
    rcases execCall_cases nnn s with ⟨h1, e⟩ | ⟨h1, e⟩
    · exact .inl ⟨if_neg (by omega), _, e, rfl, rfl, rfl, rfl, rfl⟩
    · exact .inr ⟨_, if_pos h1, e⟩
  case ret =>
    rcases execRet_cases s with ⟨h1, e⟩ | ⟨h1, e⟩
    · exact .inl ⟨if_neg (by omega), _, e, rfl, rfl, rfl, rfl, rfl⟩
    · exact .inr ⟨_, if_pos h1, e⟩
  case skp x =>
    rcases skipOnKey_eq x true s with ⟨h1, e⟩ | ⟨h1, e⟩
    · exact .inl ⟨if_neg (by omega), _, e, rfl, rfl, rfl, rfl, rfl⟩
    · exact .inr ⟨_, if_pos h1, e⟩
  case sknp x =>
    rcases skipOnKey_eq x false s with ⟨h1, e⟩ | ⟨h1, e⟩
    · exact .inl ⟨if_neg (by omega), _, e, rfl, rfl, rfl, rfl, rfl⟩
    · exact .inr ⟨_, if_pos h1, e⟩
  case bcd x =>
    rcases execBcd_cases x s with ⟨h1, e⟩ | ⟨h1, e⟩
    · exact .inl ⟨if_neg (by omega), _, e, rfl, rfl, rfl, rfl, rfl⟩
    · exact .inr ⟨_, if_pos h1, e⟩
  case storeRegs x =>
    rcases execStoreRegs_cases x s with ⟨h1, e⟩ | ⟨h1, e⟩
    · exact .inl ⟨if_neg (by omega), _, e, rfl, rfl, rfl, rfl, rfl⟩
    · exact .inr ⟨_, if_pos h1, e⟩
  case loadRegs x =>
    rcases execLoadRegs_cases x s with ⟨h1, e⟩ | ⟨h1, e⟩
    · exact .inl ⟨if_neg (by omega), _, e, rfl, rfl, rfl, rfl, rfl⟩
    · exact .inr ⟨_, if_pos h1, e⟩
  case drw x y n =>
    rcases execDrw_cases x y n s with ⟨h1, e⟩ | ⟨h1, e⟩
    · exact .inl ⟨if_neg (by omega), _, e, rfl, rfl, rfl, rfl, rfl⟩
    · exact .inr ⟨_, if_pos h1, e⟩
  case waitKey x =>
    rcases execWaitKey_cases x s with ⟨k, h1, e⟩ | ⟨h1, e⟩
    all_goals exact .inl ⟨rfl, _, e, rfl, rfl, rfl, rfl, rfl⟩
  case seImm x kk => exact .inl ⟨rfl, _, skipIf_next_iff.2 rfl, rfl, rfl, rfl, rfl, rfl⟩
  case sneImm x kk => exact .inl ⟨rfl, _, skipIf_next_iff.2 rfl, rfl, rfl, rfl, rfl, rfl⟩
  case seReg x kk => exact .inl ⟨rfl, _, skipIf_next_iff.2 rfl, rfl, rfl, rfl, rfl, rfl⟩
  case sneReg x kk => exact .inl ⟨rfl, _, skipIf_next_iff.2 rfl, rfl, rfl, rfl, rfl, rfl⟩
  all_goals exact .inl ⟨rfl, _, rfl, rfl, rfl, rfl, rfl, rfl⟩

/-- Every instruction answers a next state, and leaves the order of events and the phase of the session alone. -/
theorem exec_next (instr : Instr) (s : State) :
    ∃ t, exec instr s = .next t ∧ t.schedule = s.schedule ∧ t.phase = s.phase := by
  rcases exec_cases instr s with ⟨-, t, e, -, -, -, h, h'⟩ | ⟨c, -, e⟩
  · exact ⟨t, e, h, h'⟩
  · exact ⟨_, e, rfl, rfl⟩

/-- The engine's Step answers a next state, and leaves the order of events and the phase of the session alone. -/
theorem engineStep_next (s : State) :
    ∃ t, engineStep s = .next t ∧ t.schedule = s.schedule ∧ t.phase = s.phase := by
  rcases engineStep_cases s with ⟨-, e⟩ | ⟨-, -, e⟩ | ⟨-, -, e⟩
  · exact ⟨_, e, rfl, rfl⟩
  · exact ⟨_, e, rfl, rfl⟩
  · rw [e]; exact exec_next _ s.advancePc

/-- No event changes what is still to come. -/
theorem applyEvent_schedule {e : Event} {s t : State} (h : applyEvent e s = .next t) : t.schedule = s.schedule := by
  cases e with
  | step =>
    obtain ⟨u, hu, hs, -⟩ := engineStep_next s.closeLoad
    obtain rfl : u = t := by simpa [applyEvent, hu] using h
    exact hs
  | tick =>
    obtain rfl : tick s = t := by simpa [applyEvent] using h
    unfold tick; split <;> rfl
  | keySet k => cases h; rfl
  | keyClear k => cases h; rfl
  | reset => cases h; rfl
  | load glyphs image =>
    rcases load_cases glyphs image s with ⟨-, -, e⟩ | ⟨-, -, e⟩ | ⟨-, e⟩ <;> simp only [applyEvent, e] at h <;> cases h
    rfl

end Sys2Proof.Machine
end

