-- ==== Sys2Proof/Laws/PerInstr.lean ====
section
/-! SUPPORT. One lemma per instruction: the encoder's word has the literal digits of its row of the opcode map
(30_encoding.md R74, R76), whatever the operands. -/

namespace Sys2Proof.Laws.EncodesItsRow

/-- The mask and match of each instruction's row, from spec/opcode_table.json. -/
def rowOf : Instr → Word × Word
  | .cls => (0xFFFF#16, 0x00E0#16)
  | .ret => (0xFFFF#16, 0x00EE#16)
  | .jp _ => (0xF000#16, 0x1000#16)
  | .call _ => (0xF000#16, 0x2000#16)
  | .seImm _ _ => (0xF000#16, 0x3000#16)
  | .sneImm _ _ => (0xF000#16, 0x4000#16)
  | .seReg _ _ => (0xF00F#16, 0x5000#16)
  | .sneReg _ _ => (0xF00F#16, 0x9000#16)
  | .ldImm _ _ => (0xF000#16, 0x6000#16)
  | .addImm _ _ => (0xF000#16, 0x7000#16)
  | .ldReg _ _ => (0xF00F#16, 0x8000#16)
  | .orReg _ _ => (0xF00F#16, 0x8001#16)
  | .andReg _ _ => (0xF00F#16, 0x8002#16)
  | .xorReg _ _ => (0xF00F#16, 0x8003#16)
  | .addReg _ _ => (0xF00F#16, 0x8004#16)
  | .subReg _ _ => (0xF00F#16, 0x8005#16)
  | .shr _ _ => (0xF00F#16, 0x8006#16)
  | .subnReg _ _ => (0xF00F#16, 0x8007#16)
  | .shl _ _ => (0xF00F#16, 0x800E#16)
  | .ldI _ => (0xF000#16, 0xA000#16)
  | .jpV0 _ => (0xF000#16, 0xB000#16)
  | .rnd _ _ => (0xF000#16, 0xC000#16)
  | .drw _ _ _ => (0xF000#16, 0xD000#16)
  | .skp _ => (0xF0FF#16, 0xE09E#16)
  | .sknp _ => (0xF0FF#16, 0xE0A1#16)
  | .readDt _ => (0xF0FF#16, 0xF007#16)
  | .waitKey _ => (0xF0FF#16, 0xF00A#16)
  | .setDt _ => (0xF0FF#16, 0xF015#16)
  | .setSt _ => (0xF0FF#16, 0xF018#16)
  | .addI _ => (0xF0FF#16, 0xF01E#16)
  | .ldGlyph _ => (0xF0FF#16, 0xF029#16)
  | .bcd _ => (0xF0FF#16, 0xF033#16)
  | .storeRegs _ => (0xF0FF#16, 0xF055#16)
  | .loadRegs _ => (0xF0FF#16, 0xF065#16)
  | .noop _ => (0x0000#16, 0x0000#16)

/-- The word of the instruction, masked, is the match of its row. -/
def Statement (instr : Instr) : Prop := encode instr &&& (rowOf instr).1 = (rowOf instr).2

/-! Format NNN: only the major opcode is literal. -/
theorem mask_nnn (op : Nibble) (nnn : Addr12) : encodeNnn op nnn &&& 0xF000#16 = encodeNnn op 0#12 := by
  apply BitVec.eq_of_getLsbD_eq
  intro j hj
  simp only [encodeNnn, BitVec.getLsbD_and, BitVec.getLsbD_append]
  interval_cases j <;> simp

/-! Format XKK: only the major opcode is literal. -/
theorem mask_xkk (op x : Nibble) (kk : Byte) : encodeXkk op x kk &&& 0xF000#16 = encodeXkk op 0#4 0#8 := by
  apply BitVec.eq_of_getLsbD_eq
  intro j hj
  simp only [encodeXkk, BitVec.getLsbD_and, BitVec.getLsbD_append]
  interval_cases j <;> simp

/-! Format XM: the major opcode and the low byte are literal. -/
theorem mask_xm (op x : Nibble) (kk : Byte) : encodeXkk op x kk &&& 0xF0FF#16 = encodeXkk op 0#4 kk := by
  apply BitVec.eq_of_getLsbD_eq
  intro j hj
  simp only [encodeXkk, BitVec.getLsbD_and, BitVec.getLsbD_append]
  interval_cases j <;> simp

/-! Format XY: the major opcode and the low nibble are literal. -/
theorem mask_xy (op x y n : Nibble) : encodeXyn op x y n &&& 0xF00F#16 = encodeXyn op 0#4 0#4 n := by
  apply BitVec.eq_of_getLsbD_eq
  intro j hj
  simp only [encodeXyn, BitVec.getLsbD_and, BitVec.getLsbD_append]
  interval_cases j <;> simp

/-! Format XYN: only the major opcode is literal. -/
theorem mask_xyn (op x y n : Nibble) : encodeXyn op x y n &&& 0xF000#16 = encodeXyn op 0#4 0#4 0#4 := by
  apply BitVec.eq_of_getLsbD_eq
  intro j hj
  simp only [encodeXyn, BitVec.getLsbD_and, BitVec.getLsbD_append]
  interval_cases j <;> simp

theorem cls : Statement .cls := rfl
theorem ret : Statement .ret := rfl
theorem jp (nnn : Addr12) : Statement (.jp nnn) := mask_nnn _ nnn
theorem call (nnn : Addr12) : Statement (.call nnn) := mask_nnn _ nnn
theorem seImm (x : Nibble) (kk : Byte) : Statement (.seImm x kk) := mask_xkk _ x kk
theorem sneImm (x : Nibble) (kk : Byte) : Statement (.sneImm x kk) := mask_xkk _ x kk
theorem seReg (x y : Nibble) : Statement (.seReg x y) := mask_xy _ x y _
theorem sneReg (x y : Nibble) : Statement (.sneReg x y) := mask_xy _ x y _
theorem ldImm (x : Nibble) (kk : Byte) : Statement (.ldImm x kk) := mask_xkk _ x kk
theorem addImm (x : Nibble) (kk : Byte) : Statement (.addImm x kk) := mask_xkk _ x kk
theorem ldReg (x y : Nibble) : Statement (.ldReg x y) := mask_xy _ x y _
theorem orReg (x y : Nibble) : Statement (.orReg x y) := mask_xy _ x y _
theorem andReg (x y : Nibble) : Statement (.andReg x y) := mask_xy _ x y _
theorem xorReg (x y : Nibble) : Statement (.xorReg x y) := mask_xy _ x y _
theorem addReg (x y : Nibble) : Statement (.addReg x y) := mask_xy _ x y _
theorem subReg (x y : Nibble) : Statement (.subReg x y) := mask_xy _ x y _
theorem shr (x y : Nibble) : Statement (.shr x y) := mask_xy _ x y _
theorem subnReg (x y : Nibble) : Statement (.subnReg x y) := mask_xy _ x y _
theorem shl (x y : Nibble) : Statement (.shl x y) := mask_xy _ x y _
theorem ldI (nnn : Addr12) : Statement (.ldI nnn) := mask_nnn _ nnn
theorem jpV0 (nnn : Addr12) : Statement (.jpV0 nnn) := mask_nnn _ nnn
theorem rnd (x : Nibble) (kk : Byte) : Statement (.rnd x kk) := mask_xkk _ x kk
theorem drw (x y n : Nibble) : Statement (.drw x y n) := mask_xyn _ x y n
theorem skp (x : Nibble) : Statement (.skp x) := mask_xm _ x _
theorem sknp (x : Nibble) : Statement (.sknp x) := mask_xm _ x _
theorem readDt (x : Nibble) : Statement (.readDt x) := mask_xm _ x _
theorem waitKey (x : Nibble) : Statement (.waitKey x) := mask_xm _ x _
theorem setDt (x : Nibble) : Statement (.setDt x) := mask_xm _ x _
theorem setSt (x : Nibble) : Statement (.setSt x) := mask_xm _ x _
theorem addI (x : Nibble) : Statement (.addI x) := mask_xm _ x _
theorem ldGlyph (x : Nibble) : Statement (.ldGlyph x) := mask_xm _ x _
theorem bcd (x : Nibble) : Statement (.bcd x) := mask_xm _ x _
theorem storeRegs (x : Nibble) : Statement (.storeRegs x) := mask_xm _ x _
theorem loadRegs (x : Nibble) : Statement (.loadRegs x) := mask_xm _ x _
theorem noop (w : Word) : Statement (.noop w) := BitVec.and_zero

end Sys2Proof.Laws.EncodesItsRow
end

