-- ==== Sys2Proof/Tests/Slice0.lean ====
section
/-! SUPPORT. The model's own tests. Expected results are those of 95_test_vectors.md (the vector is named) or worked from the rule
named; witnesses show that the hypotheses of a statement can be met. -/

namespace Sys2Proof.Tests

open Sys2Proof.Machine Sys2Proof.Safety

/-- The state a step answers, if it answers one. -/
def stateOf : Result → Option State
  | .next t => some t
  | .fault _ => none
  | .refused _ => none

/-- One Step of the word `w` at the state's PC. -/
def run (s : State) (w : Nat) : Option State := stateOf (step (s.withFetchWord 16 w))

/-- The reset state with some registers set. -/
def regs (l : List (Nibble × Byte)) : State := l.foldl (fun s e => s.setV e.1 e.2) State.reset

/-- The reset state with some bytes of Mem set and I pointing at the first. -/
def bytes (s : State) (base : Nat) (l : List Byte) : State :=
  (s.setMem (s.mem.writeBytes base l)).setI (BitVec.ofNat 16 base)

/-- The state with some events to come before all others. -/
def waiting (l : List Event) (s : State) : State := { s with schedule := { s.schedule with listed := l ++ s.schedule.listed } }

/-- The lit cells, row by row. -/
def lit (p : Plane) : List (Nat × Nat) :=
  (List.range 32).flatMap fun r => ((List.range 64).filter fun c => p.cell c r).map fun c => (c, r)

/-! Well-formedness: the one check, with a term it refuses -/

theorem test_wellFormed_refuses_noop_of_a_defined_word : (Instr.noop 0x6005#16).wellFormed = false := by decide
theorem test_wellFormed_accepts_noop_of_an_unmatched_word : (Instr.noop 0x5121#16).wellFormed = true := by decide

/-! Decoding: for every constructor a word written out from the formats of 30_encoding.md R72 (op, x, y, n in that order) -/

theorem test_decode_cls : decode 0b0000000011100000#16 = .cls := by decide
theorem test_decode_ret : decode 0b0000000011101110#16 = .ret := by decide
theorem test_decode_jp : decode 0b0001001000110100#16 = .jp 0x234#12 := by decide
theorem test_decode_call : decode 0b0010001100000000#16 = .call 0x300#12 := by decide
theorem test_decode_seImm : decode 0b0011001100101010#16 = .seImm 3#4 0x2A#8 := by decide
theorem test_decode_sneImm : decode 0b0100001100101010#16 = .sneImm 3#4 0x2A#8 := by decide
theorem test_decode_seReg : decode 0b0101000100100000#16 = .seReg 1#4 2#4 := by decide
theorem test_decode_sneReg : decode 0b1001000100100000#16 = .sneReg 1#4 2#4 := by decide
theorem test_decode_ldImm : decode 0b0110000000000101#16 = .ldImm 0#4 0x05#8 := by decide
theorem test_decode_addImm : decode 0b0111000000000011#16 = .addImm 0#4 0x03#8 := by decide
theorem test_decode_ldReg : decode 0b1000000100100000#16 = .ldReg 1#4 2#4 := by decide
theorem test_decode_orReg : decode 0b1000000100100001#16 = .orReg 1#4 2#4 := by decide
theorem test_decode_andReg : decode 0b1000000100100010#16 = .andReg 1#4 2#4 := by decide
theorem test_decode_xorReg : decode 0b1000000100100011#16 = .xorReg 1#4 2#4 := by decide
theorem test_decode_addReg : decode 0b1000000100100100#16 = .addReg 1#4 2#4 := by decide
theorem test_decode_subReg : decode 0b1000000100100101#16 = .subReg 1#4 2#4 := by decide
theorem test_decode_shr : decode 0b1000000100100110#16 = .shr 1#4 2#4 := by decide
theorem test_decode_subnReg : decode 0b1000000100100111#16 = .subnReg 1#4 2#4 := by decide
theorem test_decode_shl : decode 0b1000000100101110#16 = .shl 1#4 2#4 := by decide
theorem test_decode_ldI : decode 0b1010001100000000#16 = .ldI 0x300#12 := by decide
theorem test_decode_jpV0 : decode 0b1011001100000000#16 = .jpV0 0x300#12 := by decide
theorem test_decode_rnd : decode 0b1100000100001111#16 = .rnd 1#4 0x0F#8 := by decide
theorem test_decode_drw : decode 0b1101000100100101#16 = .drw 1#4 2#4 5#4 := by decide
theorem test_decode_skp : decode 0b1110010110011110#16 = .skp 5#4 := by decide
theorem test_decode_sknp : decode 0b1110010110100001#16 = .sknp 5#4 := by decide
theorem test_decode_readDt : decode 0b1111001000000111#16 = .readDt 2#4 := by decide
theorem test_decode_waitKey : decode 0b1111001100001010#16 = .waitKey 3#4 := by decide
theorem test_decode_setDt : decode 0b1111001000010101#16 = .setDt 2#4 := by decide
theorem test_decode_setSt : decode 0b1111001000011000#16 = .setSt 2#4 := by decide
theorem test_decode_addI : decode 0b1111001000011110#16 = .addI 2#4 := by decide
theorem test_decode_ldGlyph : decode 0b1111010000101001#16 = .ldGlyph 4#4 := by decide
theorem test_decode_bcd : decode 0b1111001100110011#16 = .bcd 3#4 := by decide
theorem test_decode_storeRegs : decode 0b1111001001010101#16 = .storeRegs 2#4 := by decide
theorem test_decode_loadRegs : decode 0b1111001001100101#16 = .loadRegs 2#4 := by decide
/-- V-N4: every word of that vector is the no-op. -/
theorem test_decode_noops : [0x00E1#16, 0x00EF#16, 0x5AB1#16, 0x8AB8#16, 0x8ABF#16, 0x9AB1#16, 0xE09D#16, 0xE1A2#16,
    0xF000#16, 0xF066#16].all (fun w => decode w == .noop w) = true := by decide
theorem test_decodeBytes_is_big_endian : decodeBytes [0x60#8, 0x05#8, 0x70#8] = .ok (.ldImm 0#4 5#8, [0x70#8]) := by rfl
theorem test_decodeBytes_rejects_one_byte : decodeBytes [0x60#8] = .error .fewerThanTwoBytes := by rfl
theorem test_decodeTableWord : decodeTableWord 16 0x8124 = some (.addReg 1#4 2#4) := by decide

/-! Control transfer -/

/-- V-C1 -/
theorem test_ret : (run { State.reset with sp := 1, stack := State.reset.stack.set 0 0x0202#16, pc := 0x300#16 } 0x00EE).map
    (fun t => (t.sp.val, t.pc)) = some (0, 0x0202#16) := by decide
/-- V-C2 -/
theorem test_ret_underflow : (run { State.reset with pc := 0x300#16 } 0x00EE).map
    (fun t => (status t, t.pc, t.sp.val)) = some ((true, 2#3, 0x0300#16), 0x0300#16, 0) := by decide
/-- V-C4 -/
theorem test_jp : (run State.reset 0x1234).map (·.pc) = some 0x0234#16 := by decide
/-- V-C8 -/
theorem test_call_sixteenth : (run { State.reset with sp := 15, pc := 0x2F0#16 } 0x2300).map
    (fun t => (t.stack[15], t.sp.val, t.pc)) = some (0x02F2#16, 16, 0x0300#16) := by decide
/-- V-C9 -/
theorem test_call_overflow : (run { State.reset with sp := 16, pc := 0x2F0#16 } 0x2300).map
    (fun t => (status t, t.pc, t.sp.val, t.stack == State.reset.stack)) =
    some ((true, 1#3, 0x02F0#16), 0x02F0#16, 16, true) := by decide
/-- V-C11 -/
theorem test_jpV0_not_reduced : (run (regs [(0#4, 0xFF#8)]) 0xBFFF).map (·.pc) = some 0x10FE#16 := by decide

/-! Skips -/

/-- V-S1 -/
theorem test_seImm_taken : (run (regs [(3#4, 0x2A#8)]) 0x332A).map (·.pc) = some 0x0204#16 := by decide
/-- V-S12: an odd PC is legal. -/
theorem test_seImm_odd_pc : (run { State.reset with pc := 0x301#16 } 0x3000).map (·.pc) = some 0x0305#16 := by decide
/-- V-S3 -/
theorem test_sneImm_not_taken : (run (regs [(3#4, 0x2A#8)]) 0x432A).map (·.pc) = some 0x0202#16 := by decide
/-- V-S4 -/
theorem test_sneImm_taken : (run State.reset 0x432A).map (·.pc) = some 0x0204#16 := by decide
/-- V-S5, V-S6 -/
theorem test_seReg : (run (regs [(1#4, 7#8), (2#4, 7#8)]) 0x5120).map (·.pc) = some 0x0204#16 ∧
    (run (regs [(1#4, 7#8), (2#4, 8#8)]) 0x5120).map (·.pc) = some 0x0202#16 := by decide
/-- V-S8, V-S9 -/
theorem test_sneReg : (run (regs [(1#4, 7#8), (2#4, 8#8)]) 0x9120).map (·.pc) = some 0x0204#16 ∧
    (run (regs [(1#4, 7#8), (2#4, 7#8)]) 0x9120).map (·.pc) = some 0x0202#16 := by decide
/-- V-K1, V-K2 -/
theorem test_skp : (run ((regs [(5#4, 0x0A#8)]).setKey 0xA#4 true) 0xE59E).map (·.pc) = some 0x0204#16 ∧
    (run (regs [(5#4, 0x0A#8)]) 0xE59E).map (·.pc) = some 0x0202#16 := by decide
/-- V-K3 -/
theorem test_skp_faults : (run (regs [(5#4, 0x10#8)]) 0xE59E).map (fun t => (status t, t.pc)) =
    some ((true, 5#3, 0x0200#16), 0x0200#16) := by decide
/-- V-K4, V-K5 -/
theorem test_sknp : (run (regs [(5#4, 0x0A#8)]) 0xE5A1).map (·.pc) = some 0x0204#16 ∧
    (run ((regs [(5#4, 0x0A#8)]).setKey 0xA#4 true) 0xE5A1).map (·.pc) = some 0x0202#16 := by decide
/-- V-K6 -/
theorem test_sknp_faults : (run (regs [(5#4, 0xFF#8)]) 0xE5A1).map (fun t => (status t).2.1) = some 5#3 := by decide

/-! Register ALU: what Vx (or the named register) and VF hold after -/

/-- The registers x and VF after one Step. -/
def xf (x : Nibble) (o : Option State) : Option (Byte × Byte) := o.map fun t => (t.getV x, t.getV 0xF#4)

/-- V-A2 -/
theorem test_ldImm_vf : xf 0xF#4 (run State.reset 0x6FAB) = some (0xAB#8, 0xAB#8) := by decide
/-- V-A4: the carry is lost. -/
theorem test_addImm_wraps : xf 1#4 (run (regs [(1#4, 0xFF#8), (0xF#4, 0x77#8)]) 0x7101) = some (0#8, 0x77#8) := by decide
/-- V-A6 -/
theorem test_ldReg : xf 1#4 (run (regs [(2#4, 0x7C#8)]) 0x8120) = some (0x7C#8, 0#8) := by decide
/-- V-A7 -/
theorem test_orReg : xf 1#4 (run (regs [(1#4, 0x0F#8), (2#4, 0xF0#8), (0xF#4, 0x55#8)]) 0x8121) =
    some (0xFF#8, 0x55#8) := by decide
/-- V-A8 -/
theorem test_andReg : xf 1#4 (run (regs [(1#4, 0x3C#8), (2#4, 0x0F#8), (0xF#4, 0x55#8)]) 0x8122) =
    some (0x0C#8, 0x55#8) := by decide
/-- V-A9 -/
theorem test_xorReg : xf 1#4 (run (regs [(1#4, 0xFF#8), (2#4, 0x0F#8), (0xF#4, 0x55#8)]) 0x8123) =
    some (0xF0#8, 0x55#8) := by decide
/-- V-A11 and V-A14 -/
theorem test_addReg : xf 1#4 (run (regs [(1#4, 0xC8#8), (2#4, 0x64#8)]) 0x8124) = some (0x2C#8, 1#8) ∧
    xf 1#4 (run (regs [(1#4, 0x80#8), (2#4, 0x7F#8), (0xF#4, 1#8)]) 0x8124) = some (0xFF#8, 0#8) := by decide
/-- V-A16: with x = F the sum stays; V-A17: with y = F the old VF is the addend. -/
theorem test_addReg_vf : xf 0xF#4 (run (regs [(0xF#4, 0xF0#8), (1#4, 0x20#8)]) 0x8F14) = some (0x10#8, 0x10#8) ∧
    xf 1#4 (run (regs [(1#4, 0x20#8), (0xF#4, 0xF0#8)]) 0x81F4) = some (0x10#8, 1#8) := by decide
/-- V-A22: equal operands give no flag; V-A20. -/
theorem test_subReg : xf 1#4 (run (regs [(1#4, 9#8), (2#4, 9#8), (0xF#4, 1#8)]) 0x8125) = some (0#8, 0#8) ∧
    xf 1#4 (run (regs [(1#4, 7#8), (2#4, 5#8)]) 0x8125) = some (2#8, 1#8) := by decide
/-- V-A25 and V-A27 (decision D8) -/
theorem test_subReg_vf : xf 0xF#4 (run (regs [(0xF#4, 0x10#8), (1#4, 0x30#8)]) 0x8F15) = some (0xE0#8, 0xE0#8) ∧
    xf 1#4 (run (regs [(1#4, 0x10#8), (0xF#4, 0x30#8)]) 0x81F5) = some (0xE0#8, 0#8) := by decide
/-- V-A29: Vy is ignored. -/
theorem test_shr : xf 1#4 (run (regs [(1#4, 5#8), (2#4, 0xEE#8)]) 0x8126) = some (2#8, 1#8) := by decide
/-- V-A33 (decision D8) -/
theorem test_shr_vf : xf 0xF#4 (run (regs [(0xF#4, 7#8)]) 0x8F06) = some (3#8, 3#8) := by decide
/-- V-A35, V-A36 -/
theorem test_subnReg : xf 1#4 (run (regs [(1#4, 7#8), (2#4, 5#8)]) 0x8127) = some (0xFE#8, 0#8) ∧
    xf 1#4 (run (regs [(1#4, 5#8), (2#4, 7#8)]) 0x8127) = some (2#8, 1#8) := by decide
/-- V-A39 (decision D8) -/
theorem test_subnReg_vf : xf 1#4 (run (regs [(1#4, 0x10#8), (0xF#4, 0x30#8)]) 0x81F7) = some (0x20#8, 1#8) := by decide
/-- V-A40, V-A42 -/
theorem test_shl : xf 1#4 (run (regs [(1#4, 0xC1#8), (2#4, 0xEE#8)]) 0x812E) = some (0x82#8, 1#8) ∧
    xf 1#4 (run (regs [(1#4, 0x40#8), (0xF#4, 1#8)]) 0x810E) = some (0x80#8, 0#8) := by decide
/-- V-A47: a mask of 0 gives 0 whatever the byte drawn. -/
theorem test_rnd_masked : execRnd 1#4 0#8 (regs [(1#4, 5#8)]) =
    .next { regs [(1#4, 0#8)] with draws := 1 } := by
  simp only [execRnd, drawByte, BitVec.zero_and]
  exact congrArg Host.Outcome.next (by decide)

/-! Index and memory -/

/-- V-M1 -/
theorem test_ldI : (run { State.reset with i := 0xFFFF#16 } 0xA300).map (·.i) = some 0x0300#16 := by decide
/-- V-M3a, V-M3b -/
theorem test_addI : (run ((regs [(2#4, 1#8)]).setI 0x0FFF#16) 0xF21E).map (fun t => (t.i, t.getV 0xF#4)) = some (0x1000#16, 0#8) ∧
    (run ((regs [(2#4, 1#8)]).setI 0xFFFF#16) 0xF21E).map (·.i) = some 0#16 := by decide
/-- V-M6, V-M6b: no mask. -/
theorem test_ldGlyph : (run (regs [(4#4, 0x0F#8)]) 0xF429).map (·.i) = some 0x009B#16 ∧
    (run (regs [(4#4, 0xFF#8)]) 0xF429).map (·.i) = some 0x054B#16 := by decide
/-- V-M7a -/
theorem test_bcd : (run ((regs [(3#4, 0x9C#8)]).setI 0x300#16) 0xF333).map
    (fun t => [t.mem.read 0x300, t.mem.read 0x301, t.mem.read 0x302]) = some [1#8, 5#8, 6#8] := by decide
/-- V-M7d -/
theorem test_bcd_faults : (run ((regs [(3#4, 0xFF#8)]).setI 0xFFE#16) 0xF333).map
    (fun t => (status t, t.pc, t.mem.read 0xFFE)) = some ((true, 4#3, 0x200#16), 0x200#16, 0#8) := by decide
/-- V-M8a -/
theorem test_storeRegs : (run (bytes (regs [(0#4, 0x11#8), (1#4, 0x22#8), (2#4, 0x33#8), (3#4, 0x44#8)]) 0x400
    [0#8, 0#8, 0#8, 0x99#8]) 0xF255).map (fun t => ((List.range 4).map fun k => t.mem.read (0x400 + k), t.i)) =
    some ([0x11#8, 0x22#8, 0x33#8, 0x99#8], 0x400#16) := by decide
/-- V-M8b at the top of Mem, V-M8c one above. -/
theorem test_storeRegs_top : (run ((regs [(0xF#4, 0xEE#8)]).setI 0xFF0#16) 0xFF55).map (fun t => t.mem.read 0xFFF) = some 0xEE#8 ∧
    (run ((regs [(0xF#4, 0xEE#8)]).setI 0xFF1#16) 0xFF55).map (fun t => (status t).2.1) = some 4#3 := by decide
/-- V-M9a -/
theorem test_loadRegs : (run (bytes (regs [(3#4, 0x44#8)]) 0x400 [0x11#8, 0x22#8, 0x33#8, 0x99#8]) 0xF265).map
    (fun t => ([0#4, 1#4, 2#4, 3#4].map t.getV, t.i)) = some ([0x11#8, 0x22#8, 0x33#8, 0x44#8], 0x400#16) := by decide
/-- V-M9b -/
theorem test_loadRegs_faults : (run ((regs [(0#4, 7#8)]).setI 0xFFF#16) 0xF165).map
    (fun t => ((status t).2.1, t.getV 0#4)) = some (4#3, 7#8) := by decide

/-! Display -/

/-- V-D14 -/
theorem test_cls : (run (((regs [(0xF#4, 9#8)]).setPlane (State.reset.plane.setCell 5 5 true))) 0x00E0).map
    (fun t => (t.plane == Plane.clear, t.getV 0xF#4)) = some (true, 9#8) := by decide
/-- V-D3: a sprite that crosses two edges. -/
theorem test_drw_wraps : (run (bytes (regs [(1#4, 62#8), (2#4, 31#8)]) 0x300 [0xFF#8, 0x81#8]) 0xD122).map
    (fun t => (lit t.plane, t.getV 0xF#4)) =
    some ([(5, 0), (62, 0), (0, 31), (1, 31), (2, 31), (3, 31), (4, 31), (5, 31), (62, 31), (63, 31)], 0#8) := by
  decide +kernel
/-- V-D9: a collision; bit 7 is the leftmost pixel. -/
theorem test_drw_collides : (run ((bytes State.reset 0x300 [0xF0#8]).setPlane
    ((State.reset.plane.setCell 3 0 true).setCell 4 0 true)) 0xD011).map (fun t => (lit t.plane, t.getV 0xF#4)) =
    some ([(0, 0), (1, 0), (2, 0), (4, 0)], 1#8) := by decide +kernel

/-! Keys, timers, every other word -/

/-- V-K8: a wait changes no state of the block; the Step is taken off the schedule. -/
theorem test_waitKey_waits : (run { regs [(3#4, 0x55#8)] with pc := 0x210#16 } 0xF30A) =
    some { ({ regs [(3#4, 0x55#8)] with pc := 0x210#16 } : State).withFetchWord 16 0xF30A with
      schedule := State.reset.schedule, phase := .underway } := by decide
/-- V-K10 -/
theorem test_waitKey_takes_the_least : (run (({ regs [(3#4, 0x55#8)] with pc := 0x210#16 }.setKey 9#4 true).setKey 3#4 true)
    0xF30A).map (fun t => (t.getV 3#4, t.pc)) = some (3#8, 0x212#16) := by decide
/-- V-K12 -/
theorem test_readDt : (run { State.reset with dt := 0x3C#8 } 0xF207).map (fun t => (t.getV 2#4, t.dt)) =
    some (0x3C#8, 0x3C#8) := by decide
/-- V-K13 -/
theorem test_setDt : (run (regs [(2#4, 0x3C#8)]) 0xF215).map (fun t => (t.dt, t.st)) = some (0x3C#8, 0#8) := by decide
/-- V-K14 -/
theorem test_setSt : (run (regs [(2#4, 5#8)]) 0xF218).map (fun t => (t.st, tone t, t.dt)) = some (5#8, true, 0#8) := by decide
/-- V-T1 and V-T5 -/
theorem test_tick : ((tick { State.reset with dt := 3#8, st := 1#8 }).dt, tone (tick { State.reset with dt := 3#8, st := 1#8 })) =
    (2#8, false) ∧ (tick { State.reset with dt := 5#8, halted := true }).dt = 5#8 := by decide
/-- V-N3, and the word of V-S7, which skips nothing. -/
theorem test_noop : (run State.reset 0xFFFF).map (·.pc) = some 0x202#16 ∧
    (run (regs [(1#4, 7#8), (2#4, 7#8)]) 0x5121).map (·.pc) = some 0x202#16 := by decide
/-- V-F1 and V-F2: the last fetchable address, and the one above. -/
theorem test_fetch_edge : (run { State.reset with pc := 0xFFE#16 } 0x6001).map (fun t => (t.getV 0#4, t.pc)) = some (1#8, 0x1000#16) ∧
    (stateOf (step { State.reset with pc := 0xFFF#16 })).map (fun t => (status t, t.pc)) =
      some ((true, 3#3, 0xFFF#16), 0xFFF#16) := by decide

/-! Host events -/

theorem test_keySet_clear : (keySet 0xF#4 State.reset).keyDown 0xF#4 = true ∧
    keyClear 0xF#4 (keySet 0xF#4 State.reset) = State.reset := by decide
/-- 10_state.md R36: the glyph of digit A, at 0x082 after Load. -/
theorem test_load_default_glyphs : (stateOf (load Config.defaultGlyphData [0x60#8, 0x05#8] State.reset)).map
    (fun t => ((List.range 5).map fun k => t.mem.read (0x082 + k), t.mem.read 0x200, t.mem.read 0x09F, t.mem.read 0x0A0)) =
    some ([0xF0#8, 0x90#8, 0xF0#8, 0x90#8, 0x90#8], 0x60#8, 0x80#8, 0#8) := by decide +kernel

/-! Witnesses: a state and operands that meet the hypotheses of each statement that has some -/

theorem test_witness_DecodeOfEncode : (Instr.noop 0x0000#16).wellFormed = true ∧ (Instr.drw 0xF#4 0xF#4 0#4).wellFormed = true := by
  decide
theorem test_witness_WordsDecodeAsTheOpcodeMapSays :
    (∃ r ∈ opcodeTable, 0x8FF4#16 &&& r.mask = r.pattern) ∧ (∀ r ∈ opcodeTable, 0x8FF8#16 &&& r.mask ≠ r.pattern) := by decide
theorem test_witness_PlacedWord : State.reset.mem.wf = true := by decide
theorem test_witness_StepRuns :
    let s := bytes { State.reset with pc := 0xFFE#16 } 0xFFE [0x60#8, 0x01#8]
    s.schedule.next = .step ∧ s.halted = false ∧ s.pc.toNat ≤ 0xFFE ∧
      decode (s.mem.read s.pc.toNat ++ s.mem.read (s.pc.toNat + 1)) = .ldImm 0#4 1#8 := by decide
theorem test_witness_EventsCome : ∃ t, step (waiting [.tick] State.reset) = .next t := ⟨_, rfl⟩
theorem test_witness_ScheduledStep : { listed := [.step, .tick], after := .free 0 : Schedule }.next = .step ∧
    ∃ t, step (waiting [] State.reset) = .next t := ⟨rfl, _, rfl⟩
theorem test_witness_EveryEngineStep : State.reset.schedule.next = .step := rfl
/-- A session that loads a program and then steps for ever keeps the host's contract; one that has not loaded does not. -/
theorem test_witness_LegalSessions : Legal (waiting [.keySet 3#4, .load Config.defaultGlyphData [0x60#8], .tick] State.reset) ∧
    ¬ Legal State.reset := by
  have steps : ∀ k, legalFrom .underway (firstEvents k { listed := [], after := .steps }) = true := by
    intro k
    induction k with
    | zero => rfl
    | succ k ih => exact ih
  refine ⟨fun k => ?_, fun h => absurd (h 1) (by decide)⟩
  match k with
  | 0 => rfl
  | 1 => rfl
  | 2 => rfl
  | 3 => rfl
  | k + 4 => exact steps (k + 1)
theorem test_witness_StepFaults_none : State.reset.halted = false ∧ stepFault State.reset = none := by decide
theorem test_witness_StepFaults_some :
    stepFault { State.reset with pc := 0xFFF#16 } = some .fetchOutOfRange ∧
    stepFault { bytes State.reset 0x200 [0x22#8, 0x00#8] with sp := 16 } = some .stackOverflow ∧
    stepFault (bytes State.reset 0x200 [0x00#8, 0xEE#8]) = some .stackUnderflow ∧
    stepFault ((bytes State.reset 0x200 [0xD0#8, 0x12#8]).setI 0xFFF#16) = some .dataAddressOutOfRange ∧
    stepFault ((bytes (regs [(5#4, 0x10#8)]) 0x200 [0xE5#8, 0x9E#8])) = some .keyIndexOutOfRange := by decide
theorem test_witness_StepFaults_edges :
    stepFault { bytes State.reset 0x200 [0x22#8, 0x00#8] with sp := 15 } = none ∧
    stepFault ((bytes State.reset 0x200 [0xD0#8, 0x11#8]).setI 0xFFF#16) = none ∧
    stepFault ((bytes (regs [(5#4, 0x0F#8)]) 0x200 [0xE5#8, 0x9E#8])) = none := by decide
theorem test_witness_HaltedStateIsFrozen :
    let s := waiting [.keySet 1#4]
      { State.reset with halted := true, faultCause := .stackUnderflow, faultPc := 0x200#16, phase := .underway }
    Inv s ∧ s.halted = true ∧ s.schedule.next ≠ .reset ∧ ∃ t, step s = .next t := ⟨by decide, rfl, by decide, _, rfl⟩
theorem test_witness_EveryStepKeepsTheInvariant : Inv State.reset ∧ ∃ t, step State.reset = .next t := ⟨by decide, _, rfl⟩
theorem test_witness_Reset : (waiting [.reset, .step] State.reset).schedule.next = .reset := rfl
theorem test_witness_OnlyListedRegisters : mayWriteV (.addReg 1#4 2#4) 2#4 = false ∧
    ∃ t, exec (.addReg 1#4 2#4) State.reset = .next t := ⟨by decide, _, rfl⟩
theorem test_witness_EachState : (∃ t, exec (.storeRegs 3#4) State.reset = .next t) ∧
    instrFault (.storeRegs 3#4) State.reset = none ∧ mayWritePc (.storeRegs 3#4) = false := ⟨⟨_, rfl⟩, by decide, rfl⟩
theorem test_witness_OnlyKeyInstructions : ∃ t, exec (.ldImm 1#4 2#8) State.reset = .next t := ⟨_, rfl⟩
theorem test_witness_NoInstructionReadsST : ∃ t, exec (.readDt 1#4) State.reset = .next t := ⟨_, rfl⟩
theorem test_witness_StaleStackSlots : { State.reset with sp := 15 }.sp.val ≤ 15 ∧
    ∃ t, exec (.call 0x300#12) { State.reset with sp := 15 } = .next t := ⟨by decide, _, rfl⟩
theorem test_witness_CanonicalMemories : Memory.wf [(0, 1#8), (0xFFF, 2#8)] = true ∧ Memory.wf [(0, 0#8)] = false := by decide
theorem test_witness_Load_longest : State.reset.mem.wf = true ∧ State.reset.phase = .created ∧
    (waiting [.load Config.defaultGlyphData []] State.reset).schedule.next = .load Config.defaultGlyphData [] ∧
    (List.replicate 3584 1#8).length ≤ 3584 ∧ 3584 < (List.replicate 3585 1#8).length :=
  ⟨rfl, rfl, rfl, by rw [List.length_replicate], by rw [List.length_replicate]; omega⟩
/-- A second Load, and a Load after a Step, are refused. -/
theorem test_load_only_once : step (waiting [.load Config.defaultGlyphData []] { State.reset with phase := .underway }) =
      .refused .loadNotAllowed ∧ (run State.reset 0x00E0).map (·.phase) = some .underway := ⟨rfl, by decide⟩
theorem test_witness_HostWrites : ∃ t, step (waiting [.load Config.defaultGlyphData []] State.reset) = .next t ∧
    ∃ u, step (waiting [.tick] t) = .next u := ⟨_, rfl, _, rfl⟩
theorem test_witness_StoredBytes :
    let s := (regs [(0#4, 0x6C#8), (1#4, 0x2A#8)]).setI 0x202#16 |>.setPc 0x202#16
    s.mem.wf = true ∧ s.halted = false ∧ s.schedule.next = .step ∧ s.i.toNat + (1#4).toNat ≤ 0xFFF ∧ 0 < (1#4).toNat ∧
      s.pc.toNat = s.i.toNat + 0 ∧ ∃ t, exec (.storeRegs 1#4) s = .next t :=
  ⟨by decide, rfl, rfl, by decide, by decide, by decide, _, rfl⟩
theorem test_witness_Call : { State.reset with sp := 15 }.sp.val < 16 ∧ { State.reset with sp := 16 }.sp.val = 16 := by decide
theorem test_witness_Return : 0 < { State.reset with sp := 1 }.sp.val ∧ State.reset.sp.val = 0 := by decide
theorem test_witness_ReturnComesBack : { State.reset with sp := 15 }.sp.val < 16 ∧
    ∃ t, exec (.call 0x300#12) { State.reset with sp := 15 } = .next t := ⟨by decide, _, rfl⟩
theorem test_witness_KeySkips : ((regs [(5#4, 0x0F#8)]).getV 5#4).toNat = (0xF#4).toNat ∧
    0xF < ((regs [(5#4, 0x10#8)]).getV 5#4).toNat := by decide
theorem test_witness_Flags_in_another_register : (1#4 : Nibble) ≠ 0xF#4 ∧ (2#4 : Nibble) ≠ 1#4 ∧ (2#4 : Nibble) ≠ 0xF#4 := by
  decide
theorem test_witness_DecimalStore : (State.reset.setI 0xFFD#16).mem.wf = true ∧ (State.reset.setI 0xFFD#16).i.toNat + 2 ≤ 0xFFF ∧
    0xFFF < (State.reset.setI 0xFFE#16).i.toNat + 2 := by decide
theorem test_witness_RegisterTransfers : (State.reset.setI 0xFF0#16).mem.wf = true ∧
    (State.reset.setI 0xFF0#16).i.toNat + (0xF#4).toNat ≤ 0xFFF ∧
    0xFFF < (State.reset.setI 0xFF1#16).i.toNat + (0xF#4).toNat := by decide
theorem test_witness_StoreThenLoad : ∃ t u, exec (.storeRegs 0xF#4) (State.reset.setI 0xFF0#16) = .next t ∧
    exec (.loadRegs 0xF#4) { t with v := Vector.replicate 16 7#8 } = .next u := ⟨_, _, rfl, rfl⟩
theorem test_witness_Draw : (State.reset.setI 0xFFF#16).i.toNat + (1#4).toNat - 1 ≤ 0xFFF ∧
    0xFFF < (State.reset.setI 0xFFF#16).i.toNat + (2#4).toNat - 1 ∧ (0#4).toNat = 0 := by decide
theorem test_witness_DrawCovers : SpriteCovers (bytes (regs [(1#4, 63#8), (2#4, 31#8)]) 0x300 [0xC0#8]) 1#4 2#4 1#4 0 31 :=
  ⟨0, 1, by decide, by decide, by decide, by decide, by decide⟩
theorem test_witness_DrawingTwice : (1#4 : Nibble) ≠ 0xF#4 ∧ (2#4 : Nibble) ≠ 0xF#4 ∧
    State.reset.i.toNat + (5#4).toNat - 1 ≤ 0xFFF ∧
    ∃ t u, exec (.drw 1#4 2#4 5#4) State.reset = .next t ∧ exec (.drw 1#4 2#4 5#4) t = .next u :=
  ⟨by decide, by decide, by decide, _, _, rfl, rfl⟩
theorem test_witness_KeyWait : (State.reset.setKey 0xF#4 true).keyDown 0xF#4 = true ∧
    (∀ j : Nibble, j.toNat < (0xF#4).toNat → (State.reset.setKey 0xF#4 true).keyDown j = false) ∧
    (∀ k, State.reset.keyDown k = false) := by decide
theorem test_witness_KeyWait_step : let s := bytes State.reset 0x200 [0xF3#8, 0x0A#8]
    (∀ k, s.keyDown k = false) ∧ s.schedule.next = .step ∧ s.halted = false ∧ s.pc.toNat ≤ 0xFFE ∧
      decode (wordAtPc s) = .waitKey 3#4 := by decide
theorem test_witness_TimerWrites : State.reset.halted = false ∧ (waiting [.tick] State.reset).schedule.next = .tick ∧
    (waiting [.tick] { State.reset with halted := true }).halted = true := ⟨rfl, rfl, rfl⟩
theorem test_witness_TickCommutes : ∃ t, exec (.addImm 1#4 1#8) { State.reset with dt := 1#8 } = .next t ∧ t.halted = false :=
  ⟨_, rfl, rfl⟩
theorem test_witness_KeyEvents : (∃ t, exec .cls State.reset = .next t) ∧
    (waiting [.keySet 0xF#4] State.reset).schedule.next = .keySet 0xF#4 ∧
    (waiting [.keyClear 0#4] State.reset).schedule.next = .keyClear 0#4 := ⟨⟨_, rfl⟩, rfl, rfl⟩
theorem test_witness_Tone : (∃ t, exec (.setSt 1#4) (regs [(1#4, 1#8)]) = .next t ∧ tone t ≠ tone (regs [(1#4, 1#8)])) ∧
    tone (tick { State.reset with st := 1#8 }) ≠ tone { State.reset with st := 1#8 } ∧
    (∃ t, step (waiting [.reset] { State.reset with st := 1#8 }) = .next t ∧
      tone t ≠ tone (waiting [.reset] { State.reset with st := 1#8 })) :=
  ⟨⟨_, rfl, by decide⟩, by decide, ⟨_, rfl, by decide⟩⟩
theorem test_witness_Unmatched : State.reset.schedule.next = .step ∧ State.reset.halted = false ∧ State.reset.pc.toNat ≤ 0xFFE ∧
    (∀ r ∈ opcodeTable, wordAtPc State.reset &&& r.mask ≠ r.pattern) := by decide

end Sys2Proof.Tests
end

section
/-! SUPPORT. Proofs of the statements about the state (10_state.md). The layer first: the canonical form of Mem, the table of
R41 by rows and by columns, the fields that most instructions pass by, the invariant. Then the obligations. -/

namespace Sys2Proof.Machine

open Sys2Proof.Safety

/-! ## The canonical form of Mem (R29) -/

theorem Memory.wfFrom_cons_iff {lo a : Nat} {b : Byte} {m : Memory} :
    Memory.wfFrom lo ((a, b) :: m) = true ↔
      lo ≤ a ∧ a < Config.memSize ∧ b ≠ 0#8 ∧ Memory.wfFrom (a + 1) m = true := by
  simp only [Memory.wfFrom, Bool.and_eq_true, decide_eq_true_eq, bne_iff_ne, and_assoc]

@[simp] theorem Memory.read_cons_same (a : Nat) (b : Byte) (m : Memory) : Memory.read ((a, b) :: m) a = b := by
  simp [Memory.read]

theorem Memory.read_cons_other {a z : Nat} (h : z ≠ a) (b : Byte) (m : Memory) :
    Memory.read ((a, b) :: m) z = m.read z := by
  simp [Memory.read, h]

/-- A byte that is not 0 stands at or above the bound of every canonical memory that holds it. -/
theorem Memory.le_of_read_ne {m : Memory} {lo a : Nat} (hm : Memory.wfFrom lo m = true) (h : m.read a ≠ 0#8) : lo ≤ a :=
  Nat.le_of_not_lt fun ha => h (Memory.read_below hm ha)

/-- Canonical memories that read alike are the same list: neither can list a lowest address below the other's, and with the
lowest cells equal the rest reads alike too. -/
theorem Memory.eq_of_read_eq {m m' : Memory} {lo lo' : Nat} (hm : Memory.wfFrom lo m = true)
    (hm' : Memory.wfFrom lo' m' = true) (h : ∀ a, m.read a = m'.read a) : m = m' := by
  induction m generalizing lo lo' m' with
  | nil =>
    cases m' with
    | nil => rfl
    | cons cell' m' =>
      obtain ⟨a', b'⟩ := cell'
      obtain ⟨-, -, hb', -⟩ := Memory.wfFrom_cons_iff.1 hm'
      exact absurd (by simpa using (h a').symm) hb'
  | cons cell m ih =>
    obtain ⟨a, b⟩ := cell
    obtain ⟨-, ha, hb, hrest⟩ := Memory.wfFrom_cons_iff.1 hm
    cases m' with
    | nil => exact absurd (by simpa using h a) hb
    | cons cell' m' =>
      obtain ⟨a', b'⟩ := cell'
      obtain ⟨-, ha', hb', hrest'⟩ := Memory.wfFrom_cons_iff.1 hm'
      have hle : a' ≤ a := Memory.le_of_read_ne (m := (a', b') :: m')
        (Memory.wfFrom_cons_iff.2 ⟨le_rfl, ha', hb', hrest'⟩) (by rw [← h a]; simpa using hb)
      have hge : a ≤ a' := Memory.le_of_read_ne (m := (a, b) :: m)
        (Memory.wfFrom_cons_iff.2 ⟨le_rfl, ha, hb, hrest⟩) (by rw [h a']; simpa using hb')
      obtain rfl : a = a' := le_antisymm hge hle
      obtain rfl : b = b' := by simpa using h a
      have htail : ∀ z, Memory.read m z = Memory.read m' z := fun z => by
        by_cases hz : z = a
        · rw [hz, Memory.read_below hrest (Nat.lt_succ_self a), Memory.read_below hrest' (Nat.lt_succ_self a)]
        · simpa [Memory.read_cons_other hz] using h z
      rw [ih hrest hrest' htail]

/-! ## CALL and RET, with and without room (R100, R102) -/

theorem execCall_of_lt {s : State} (h : s.sp.val < 16) (nnn : Addr12) :
    execCall nnn s = .next { s with
      stack := s.stack.set s.sp.val s.pc h, sp := ⟨s.sp.val + 1, by omega⟩, pc := zext16 nnn } := by
  rcases execCall_cases nnn s with ⟨_, e⟩ | ⟨h16, -⟩
  · exact e
  · omega

theorem execCall_of_full {s : State} (h : s.sp.val = 16) (nnn : Addr12) :
    execCall nnn s = .next (haltedBy .stackOverflow s) := by
  rcases execCall_cases nnn s with ⟨hlt, -⟩ | ⟨-, e⟩
  · omega
  · exact e

theorem execRet_of_pos {s : State} (h : 0 < s.sp.val) :
    execRet s = .next { s with sp := ⟨s.sp.val - 1, by omega⟩, pc := s.stack[s.sp.val - 1]'(by omega) } := by
  rcases execRet_cases s with ⟨_, e⟩ | ⟨h0, -⟩
  · exact e
  · omega

theorem execRet_of_empty {s : State} (h : s.sp.val = 0) : execRet s = .next (haltedBy .stackUnderflow s) := by
  rcases execRet_cases s with ⟨hpos, -⟩ | ⟨-, e⟩
  · omega
  · exact e

/-! ## The table of R41 by rows: what a completing instruction leaves as before -/

/-- The row of an instruction: `t` is `s` with at most the fields of that row changed. -/
def ChangesRow (instr : Instr) (s t : State) : Prop :=
  match instr with
  | .cls => ∃ p, t = { s with plane := p }
  | .drw _ _ _ => ∃ p v, t = { s with plane := p, v := v }
  | .call _ | .ret => ∃ sp stack pc, t = { s with sp := sp, stack := stack, pc := pc }
  | .jp _ | .jpV0 _ | .seImm _ _ | .sneImm _ _ | .seReg _ _ | .sneReg _ _ | .skp _ | .sknp _ =>
    ∃ pc, t = { s with pc := pc }
  | .waitKey _ => ∃ v pc, t = { s with v := v, pc := pc }
  | .ldImm _ _ | .addImm _ _ | .ldReg _ _ | .orReg _ _ | .andReg _ _ | .xorReg _ _ | .addReg _ _ | .subReg _ _
  | .shr _ _ | .subnReg _ _ | .shl _ _ | .readDt _ | .loadRegs _ => ∃ v, t = { s with v := v }
  | .rnd _ _ => ∃ v draws, t = { s with v := v, draws := draws }
  | .ldI _ | .addI _ | .ldGlyph _ => ∃ i, t = { s with i := i }
  | .setDt _ => ∃ dt, t = { s with dt := dt }
  | .setSt _ => ∃ st, t = { s with st := st }
  | .bcd _ | .storeRegs _ => ∃ m, t = { s with mem := m }
  | .noop _ => t = s

/-- Of an operation that completes or faults, the state it completes in, when it does not fault. -/
theorem eq_of_completes {p q : Prop} {o : Result} {a b t : State} (h : p ∧ o = .next a ∨ q ∧ o = .next b) (hq : ¬ q)
    (ht : o = .next t) : t = a := by
  rcases h with ⟨-, e⟩ | ⟨hq', -⟩
  · exact (Host.Outcome.next.inj (e.symm.trans ht)).symm
  · exact absurd hq' hq

/-- An instruction that does not fault changes only what its row lists. -/
theorem exec_changesRow {instr : Instr} {s t : State} (hf : instrFault instr s = none) (h : exec instr s = .next t) :
    ChangesRow instr s t := by
  cases instr
  case call nnn =>
    have hne : s.sp.val ≠ 16 := by simpa [instrFault] using hf
    have hsp : s.sp.val < 16 := by omega
    cases (execCall_of_lt hsp nnn).symm.trans h
    exact ⟨_, _, _, rfl⟩
  case ret =>
    have hne : s.sp.val ≠ 0 := by simpa [instrFault] using hf
    have hsp : 0 < s.sp.val := Nat.pos_of_ne_zero hne
    cases (execRet_of_pos hsp).symm.trans h
    exact ⟨_, _, _, rfl⟩
  case skp x => exact ⟨_, eq_of_completes (skipOnKey_eq x true s) (by simpa [instrFault] using hf) h⟩
  case sknp x => exact ⟨_, eq_of_completes (skipOnKey_eq x false s) (by simpa [instrFault] using hf) h⟩
  case bcd x => exact ⟨_, eq_of_completes (execBcd_cases x s) (by simpa [instrFault] using hf) h⟩
  case storeRegs x => exact ⟨_, eq_of_completes (execStoreRegs_cases x s) (by simpa [instrFault] using hf) h⟩
  case loadRegs x => exact ⟨_, eq_of_completes (execLoadRegs_cases x s) (by simpa [instrFault] using hf) h⟩
  case drw x y n =>
    exact ⟨_, _, eq_of_completes (execDrw_cases x y n s) (by simpa [instrFault] using hf) h⟩
  case waitKey x =>
    rcases execWaitKey_cases x s with ⟨k, -, e⟩ | ⟨-, e⟩ <;> cases e.symm.trans h <;> exact ⟨_, _, rfl⟩
  case seImm | sneImm | seReg | sneReg => exact ⟨_, skipIf_next_iff.1 h⟩
  case rnd x kk => cases h; exact ⟨_, _, rfl⟩
  case noop w => cases h; rfl
  all_goals cases h; exact ⟨_, rfl⟩

/-! ## The table of R41 by columns: which instructions leave a field as before -/

/-- The columns of the table, for one instruction that leads from `s` to `t`, faults included. -/
structure KeepsColumns (instr : Instr) (s t : State) : Prop where
  v : (∀ z, mayWriteV instr z = false) → t.v = s.v
  stack : (∀ nnn, instr ≠ .call nnn) → instr ≠ .ret → t.sp = s.sp ∧ t.stack = s.stack
  i : (∀ nnn, instr ≠ .ldI nnn) → (∀ x, instr ≠ .addI x) → (∀ x, instr ≠ .ldGlyph x) → t.i = s.i
  dt : (∀ x, instr ≠ .setDt x) → t.dt = s.dt
  st : (∀ x, instr ≠ .setSt x) → t.st = s.st
  mem : (∀ x, instr ≠ .bcd x) → (∀ x, instr ≠ .storeRegs x) → t.mem = s.mem
  plane : instr ≠ .cls → (∀ x y n, instr ≠ .drw x y n) → t.plane = s.plane
  pc : instrFault instr s = none → mayWritePc instr = false → t.pc = s.pc
  fault : instrFault instr s = none → t.halted = s.halted ∧ t.faultCause = s.faultCause ∧ t.faultPc = s.faultPc
  keys : t.keys = s.keys
  draws : (∀ x kk, instr ≠ .rnd x kk) → t.draws = s.draws
  schedule : t.schedule = s.schedule
  phase : t.phase = s.phase

/-- A fault keeps every column but those of PC and the fault registers (60_exceptions.md R185). -/
theorem keepsColumns_haltedBy {instr : Instr} {s : State} {c : Cause} (hf : instrFault instr s = some c) :
    KeepsColumns instr s (haltedBy c s) := by
  constructor <;> simp [haltedBy, hf]

/-- A row, read by columns. -/
theorem ChangesRow.keepsColumns {instr : Instr} {s t : State} (h : ChangesRow instr s t) : KeepsColumns instr s t := by
  cases instr
  case cls => obtain ⟨p, rfl⟩ := h; constructor <;> simp
  case drw => obtain ⟨p, v, rfl⟩ := h; constructor <;> simp [mayWriteV]
  case call | ret => obtain ⟨sp, stack, pc, rfl⟩ := h; constructor <;> simp [mayWritePc]
  case jp | jpV0 | seImm | sneImm | seReg | sneReg | skp | sknp =>
    obtain ⟨pc, rfl⟩ := h; constructor <;> simp [mayWritePc]
  case waitKey => obtain ⟨v, pc, rfl⟩ := h; constructor <;> simp [mayWriteV, mayWritePc]
  case rnd => obtain ⟨v, draws, rfl⟩ := h; constructor <;> simp [mayWriteV]
  case ldI | addI | ldGlyph => obtain ⟨i, rfl⟩ := h; constructor <;> simp
  case setDt => obtain ⟨dt, rfl⟩ := h; constructor <;> simp
  case setSt => obtain ⟨st, rfl⟩ := h; constructor <;> simp
  case bcd | storeRegs => obtain ⟨m, rfl⟩ := h; constructor <;> simp
  case noop => obtain rfl := h; constructor <;> simp
  case loadRegs x =>
    obtain ⟨v, rfl⟩ := h
    constructor
    case v => exact fun hz => absurd (hz x) (by simp [mayWriteV])
    all_goals simp
  all_goals obtain ⟨v, rfl⟩ := h; constructor <;> simp [mayWriteV, forall_and]

/-- Every instruction, completing or faulting, keeps the columns that do not list it. -/
theorem exec_keepsColumns {instr : Instr} {s t : State} (h : exec instr s = .next t) : KeepsColumns instr s t := by
  rcases exec_cases instr s with ⟨hf, -⟩ | ⟨c, hf, e⟩
  · exact (exec_changesRow hf h).keepsColumns
  · cases e.symm.trans h
    exact keepsColumns_haltedBy hf

/-! ## Fields that most instructions pass by (R25, R28, R31) -/

/-- `s` with the key latch, the stack slots and ST each put through a function. -/
def State.mapAside (fk : Vector Bool 16 → Vector Bool 16) (fs : Vector Word 16 → Vector Word 16) (ft : Byte → Byte)
    (s : State) : State :=
  { s with keys := fk s.keys, stack := fs s.stack, st := ft s.st }

section MapAside

variable {fk : Vector Bool 16 → Vector Bool 16} {fs : Vector Word 16 → Vector Word 16} {ft : Byte → Byte}

theorem storeFirst_mapAside (s : State) (count : Nat) : storeFirst (s.mapAside fk fs ft) count = storeFirst s count := by
  induction count with
  | zero => rfl
  | succ n ih => rw [storeFirst, storeFirst, ih]; rfl

theorem loadFirst_mapAside_v (s : State) (count : Nat) :
    (loadFirst (s.mapAside fk fs ft) count).v = (loadFirst s count).v := by
  induction count with
  | zero => rfl
  | succ n ih => rw [loadFirst, loadFirst, State.setV_v, State.setV_v, ih]; rfl

/-- Two operations that complete or fault on the same condition, in states related by `f`, answer states related by `f`. -/
theorem map_answer {f : State → State} {p q : Prop} {o o' : Result} {a b t : State} (hpq : ¬ (p ∧ q))
    (h : p ∧ o = .next a ∨ q ∧ o = .next b) (h' : p ∧ o' = .next (f a) ∨ q ∧ o' = .next (f b))
    (ht : o = .next t) : o' = .next (f t) := by
  rcases h with ⟨hp, e⟩ | ⟨hq, e⟩ <;> cases e.symm.trans ht <;> rcases h' with ⟨hp', e'⟩ | ⟨hq', e'⟩
  · exact e'
  · exact absurd ⟨hp, hq'⟩ hpq
  · exact absurd ⟨hp', hq⟩ hpq
  · exact e'

/-- An instruction does the same whatever stands in the key latch, the stack slots and ST, each unless it is one of the few
that read or write that field. -/
theorem exec_mapAside {instr : Instr} {s t : State}
    (hk : fk = id ∨ (∀ x, instr ≠ .skp x) ∧ (∀ x, instr ≠ .sknp x) ∧ ∀ x, instr ≠ .waitKey x)
    (hs : fs = id ∨ (∀ nnn, instr ≠ .call nnn) ∧ instr ≠ .ret)
    (ht : ft = id ∨ ∀ x, instr ≠ .setSt x)
    (h : exec instr s = .next t) : exec instr (s.mapAside fk fs ft) = .next (t.mapAside fk fs ft) := by
  cases instr
  case call nnn =>
    obtain rfl := hs.resolve_right fun hne => hne.1 nnn rfl
    rcases Nat.lt_or_ge s.sp.val 16 with hsp | hsp
    · cases (execCall_of_lt hsp nnn).symm.trans h
      exact execCall_of_lt (s := s.mapAside fk id ft) hsp nnn
    · have hfull : s.sp.val = 16 := by omega
      cases (execCall_of_full hfull nnn).symm.trans h
      exact execCall_of_full (s := s.mapAside fk id ft) hfull nnn
  case ret =>
    obtain rfl := hs.resolve_right fun hne => hne.2 rfl
    rcases Nat.eq_zero_or_pos s.sp.val with hsp | hsp
    · cases (execRet_of_empty hsp).symm.trans h
      exact execRet_of_empty (s := s.mapAside fk id ft) hsp
    · cases (execRet_of_pos hsp).symm.trans h
      exact execRet_of_pos (s := s.mapAside fk id ft) hsp
  case skp x =>
    obtain rfl := hk.resolve_right fun hne => hne.1 x rfl
    exact map_answer (by omega) (skipOnKey_eq x true s) (skipOnKey_eq x true (s.mapAside id fs ft)) h
  case sknp x =>
    obtain rfl := hk.resolve_right fun hne => hne.2.1 x rfl
    exact map_answer (by omega) (skipOnKey_eq x false s) (skipOnKey_eq x false (s.mapAside id fs ft)) h
  case waitKey x =>
    obtain rfl := hk.resolve_right fun hne => hne.2.2 x rfl
    have hkey : firstPressed (s.mapAside id fs ft) = firstPressed s := rfl
    rcases execWaitKey_cases x s with ⟨k, hp, e⟩ | ⟨hp, e⟩ <;> cases e.symm.trans h
    all_goals simp only [exec, execWaitKey, hkey, hp]; rfl
  case setSt x =>
    obtain rfl := ht.resolve_right fun hne => hne x rfl
    cases h; rfl
  case bcd x => exact map_answer (by omega) (execBcd_cases x s) (execBcd_cases x (s.mapAside fk fs ft)) h
  case storeRegs x =>
    have h' := execStoreRegs_cases x (s.mapAside fk fs ft)
    rw [storeFirst_mapAside] at h'
    exact map_answer (by omega) (execStoreRegs_cases x s) h' h
  case loadRegs x =>
    have h' := execLoadRegs_cases x (s.mapAside fk fs ft)
    rw [loadFirst_mapAside_v] at h'
    exact map_answer (by omega) (execLoadRegs_cases x s) h' h
  case drw x y n => exact map_answer (by omega) (execDrw_cases x y n s) (execDrw_cases x y n (s.mapAside fk fs ft)) h
  case seImm | sneImm | seReg | sneReg =>
    rw [skipIf_next_iff.1 h]
    exact skipIf_next_iff.2 rfl
  all_goals cases h; rfl

end MapAside

/-! ## The invariant (R45) -/

/-- The table of 60_exceptions.md R181 names a cause for every fault. -/
theorem instrFault_ne_none (instr : Instr) (s : State) : instrFault instr s ≠ some .none := by
  cases instr <;> simp [instrFault]

/-- Every instruction keeps the canonical form of Mem: the two that store do so inside Mem or fault. -/
theorem exec_mem_wf {instr : Instr} {s t : State} (hm : s.mem.wf = true) (h : exec instr s = .next t) :
    t.mem.wf = true := by
  cases instr
  case bcd x =>
    rcases execBcd_cases x s with ⟨hr, e⟩ | ⟨-, e⟩ <;> cases e.symm.trans h
    · exact writeDigits_wf hm hr _
    · exact hm
  case storeRegs x =>
    rcases execStoreRegs_cases x s with ⟨hr, e⟩ | ⟨-, e⟩ <;> cases e.symm.trans h
    · exact storeFirst_wf hm (by omega)
    · exact hm
  all_goals
    rw [(exec_keepsColumns h).mem nofun nofun]
    exact hm

/-- The execute phase of a running engine keeps the invariant: it goes on running, or it enters a fault with a cause. -/
theorem exec_inv {instr : Instr} {s t : State} (hs : Inv s) (hrun : s.halted = false) (hph : s.phase = .underway)
    (h : exec instr s = .next t) : Inv t := by
  obtain ⟨hm, ⟨hclear, -⟩, -⟩ := hs
  have hm' := exec_mem_wf hm h
  rcases exec_cases instr s with ⟨hf, -⟩ | ⟨c, hf, e⟩
  · obtain ⟨hh, hc, hp⟩ := (exec_keepsColumns h).fault hf
    refine ⟨hm', ⟨fun _ => ?_, fun ht => ?_⟩, fun _ => (exec_keepsColumns h).phase.trans hph⟩
    · rw [hc, hp]; exact hclear hrun
    · rw [hh, hrun] at ht; cases ht
  · cases e.symm.trans h
    have hne : c ≠ .none := fun hc => instrFault_ne_none instr s (hc ▸ hf)
    exact ⟨hm', ⟨nofun, fun _ => ⟨hne, rfl⟩⟩, fun _ => hph⟩

/-- A Step keeps the invariant, in a session that it has closed to Load. -/
theorem engineStep_inv {s t : State} (hs : Inv s) (hph : s.phase = .underway) (h : engineStep s = .next t) : Inv t := by
  rcases engineStep_cases s with ⟨-, e⟩ | ⟨-, -, e⟩ | ⟨hrun, -, e⟩
  · cases e.symm.trans h
    exact hs
  · cases e.symm.trans h
    exact ⟨hs.1, ⟨nofun, fun _ => ⟨nofun, rfl⟩⟩, fun _ => hph⟩
  · obtain ⟨hm, ⟨hclear, -⟩, -⟩ := hs
    have hadv : Inv s.advancePc := ⟨hm, ⟨hclear, fun hh => absurd (hrun.symm.trans hh) nofun⟩, fun _ => hph⟩
    exact exec_inv hadv hrun hph (e.symm.trans h)

theorem closeLoad_inv {s : State} (hs : Inv s) : Inv s.closeLoad := ⟨hs.1, hs.2.1, fun _ => rfl⟩

theorem tick_inv {s : State} (hs : Inv s) : Inv (tick s) := by
  unfold tick
  split <;> exact hs

/-- What a Load writes lies inside Mem. -/
theorem loadImage_inv {s : State} (hs : Inv s) (glyphs : Vector Byte 80) {image : List Byte} (hlen : image.length ≤ 3584) :
    Inv (loadImage glyphs image s) := by
  obtain ⟨hm, hrest⟩ := hs
  refine ⟨Memory.wf_writeBytes (Memory.wf_writeBytes hm ?_) ?_, hrest⟩
  · simp
  · simp only [programBase_eq, memSize_eq]; omega

theorem reset_inv : Inv State.reset := ⟨Memory.wf_reset, ⟨fun _ => ⟨rfl, rfl⟩, nofun⟩, nofun⟩

theorem hostReset_inv (s : State) : Inv (hostReset s) := reset_inv

/-- Every event of every agent keeps the invariant. -/
theorem applyEvent_inv {e : Event} {s t : State} (hs : Inv s) (h : applyEvent e s = .next t) : Inv t := by
  cases e with
  | step => exact engineStep_inv (closeLoad_inv hs) rfl h
  | tick => cases h; exact tick_inv hs
  | keySet k => cases h; exact hs
  | keyClear k => cases h; exact hs
  | reset => cases h; exact hostReset_inv s
  | load glyphs image =>
    rcases load_cases glyphs image s with ⟨-, hlen, e⟩ | ⟨-, -, e⟩ | ⟨-, e⟩ <;> cases e.symm.trans h
    exact closeLoad_inv (loadImage_inv hs glyphs hlen)

/-! ## The registers an instruction lists (R41) -/

theorem State.getV_eq_of_v_eq {s t : State} (h : t.v = s.v) (z : Nibble) : t.getV z = s.getV z := by
  simp only [State.getV, h]

/-- An instruction writes no V register but those the table lists for it. -/
theorem exec_getV_of_not_mayWriteV {instr : Instr} {s t : State} {z : Nibble} (h : exec instr s = .next t)
    (hz : mayWriteV instr z = false) : t.getV z = s.getV z := by
  cases instr
  case ldImm | addImm | ldReg | orReg | andReg | xorReg | rnd | readDt =>
    cases h
    exact State.getV_setV_other _ _ (by simpa [mayWriteV] using hz)
  case addReg | subReg | shr | subnReg | shl =>
    cases h
    obtain ⟨hx, hF⟩ : z ≠ _ ∧ z ≠ 0xF#4 := by simpa [mayWriteV] using hz
    rw [writeFlagThenResult_getV, if_neg hx, if_neg hF]
  case waitKey x =>
    rcases execWaitKey_cases x s with ⟨k, -, e⟩ | ⟨-, e⟩ <;> cases e.symm.trans h
    · exact State.getV_setV_other _ _ (by simpa [mayWriteV] using hz)
    · rfl
  case drw x y n =>
    rcases execDrw_cases x y n s with ⟨-, e⟩ | ⟨-, e⟩ <;> cases e.symm.trans h
    · exact State.getV_setV_other s _ (by simpa [mayWriteV] using hz)
    · rfl
  case loadRegs x =>
    have hxz : x.toNat < z.toNat := by simpa [mayWriteV] using hz
    rcases execLoadRegs_cases x s with ⟨-, e⟩ | ⟨-, e⟩ <;> cases e.symm.trans h
    · exact (loadFirst_getV s (by omega) z).trans (if_neg (by omega))
    · rfl
  all_goals exact State.getV_eq_of_v_eq ((exec_keepsColumns h).v fun _ => rfl) z

/-! ## Slots at or above SP (R25) -/

/-- `s` with one stack slot overwritten. -/
def State.setSlot (s : State) (j : Nat) (hj : j < 16) (a : Word) : State := { s with stack := s.stack.set j a hj }

/-- `u` cannot be told from `t`: the stack alone may differ, and of the stack no slot below SP. -/
def SameButStale (t u : State) : Prop :=
  u = { t with stack := u.stack } ∧ ∀ k (hk : k < 16), k < t.sp.val → u.stack[k] = t.stack[k]

/-- A slot at or above SP may hold anything. -/
theorem sameButStale_setSlot {t : State} {j : Nat} (hj : j < 16) (a : Word) (hsp : t.sp.val ≤ j) :
    SameButStale t (t.setSlot j hj a) :=
  ⟨rfl, fun _ hk hlt => Vector.getElem_set_ne hj hk (by omega)⟩

/-- CALL overwrites the slot at SP, so that slot may be stale, and every slot above it stays so. -/
theorem execCall_setSlot {s t : State} {nnn : Addr12} {j : Nat} (hj : j < 16) (a : Word) (hsp : s.sp.val ≤ j)
    (h : execCall nnn s = .next t) : ∃ u, execCall nnn (s.setSlot j hj a) = .next u ∧ SameButStale t u := by
  have hlt : s.sp.val < 16 := by omega
  cases (execCall_of_lt hlt nnn).symm.trans h
  refine ⟨_, execCall_of_lt (s := s.setSlot j hj a) hlt nnn, rfl, fun k hk hk' => ?_⟩
  rcases Nat.lt_succ_iff_lt_or_eq.1 hk' with hk' | rfl
  · simp only [State.setSlot]
    rw [Vector.getElem_set_ne hlt hk (by omega), Vector.getElem_set_ne hlt hk (by omega),
      Vector.getElem_set_ne hj hk (by omega)]
  · simp [State.setSlot]

/-- RET reads the slot below SP, which is not stale, and lowers SP. -/
theorem execRet_setSlot {s t : State} {j : Nat} (hj : j < 16) (a : Word) (hsp : s.sp.val ≤ j)
    (h : execRet s = .next t) : execRet (s.setSlot j hj a) = .next (t.setSlot j hj a) ∧ t.sp.val ≤ j := by
  rcases Nat.eq_zero_or_pos s.sp.val with hz | hpos
  · cases (execRet_of_empty hz).symm.trans h
    exact ⟨execRet_of_empty (s := s.setSlot j hj a) hz, hsp⟩
  · cases (execRet_of_pos hpos).symm.trans h
    have hslot : (s.stack.set j a hj)[s.sp.val - 1] = s.stack[s.sp.val - 1] :=
      Vector.getElem_set_ne hj (by omega) (by omega)
    refine ⟨(execRet_of_pos (s := s.setSlot j hj a) hpos).trans ?_, Nat.le_trans (Nat.sub_le _ _) hsp⟩
    simp only [State.setSlot, hslot]

/-- Of a slot at or above SP no instruction tells the value. -/
theorem exec_setSlot {instr : Instr} {s t : State} {j : Nat} (hj : j < 16) (a : Word) (hsp : s.sp.val ≤ j)
    (h : exec instr s = .next t) : ∃ u, exec instr (s.setSlot j hj a) = .next u ∧ SameButStale t u := by
  cases instr
  case call nnn => exact execCall_setSlot hj a hsp h
  case ret =>
    obtain ⟨e, hle⟩ := execRet_setSlot hj a hsp h
    exact ⟨_, e, sameButStale_setSlot hj a hle⟩
  all_goals
    have hsp' : t.sp = s.sp := ((exec_keepsColumns h).stack nofun nofun).1
    exact ⟨_, exec_mapAside (fk := id) (fs := fun stack => stack.set j a hj) (ft := id)
      (.inl rfl) (.inr ⟨nofun, nofun⟩) (.inl rfl) h, sameButStale_setSlot hj a (hsp'.symm ▸ hsp)⟩

/-! ## The reset values (R38) -/

theorem reset_getV (x : Nibble) : State.reset.getV x = 0#8 := by
  simp [State.getV, State.reset]

theorem reset_slot {j : Nat} (hj : j < 16) : State.reset.stack[j] = 0#16 := by
  simp [State.reset]

theorem reset_cell (c r : Nat) : State.reset.plane.cell c r = false := Plane.cell_clear c r

theorem reset_keyDown (k : Nibble) : State.reset.keyDown k = false := by
  simp [State.keyDown, State.reset]

end Sys2Proof.Machine

namespace Sys2Proof.Proofs

open Sys2Proof.Machine Sys2Proof.Safety

/-- Settles O13: each event of each agent keeps the invariant, and a step is one event. -/
theorem everyStepKeepsTheInvariant : Obligations.EveryStepKeepsTheInvariant := by
  unfold Obligations.EveryStepKeepsTheInvariant
  intro s t hs h
  have htaken : Inv s.takeEvent := hs
  exact applyEvent_inv htaken ((step_eq s).symm.trans h)

/-- Settles O16: the V columns of the table, instruction by instruction. -/
theorem onlyListedRegistersAreWritten : Obligations.OnlyListedRegistersAreWritten := by
  unfold Obligations.OnlyListedRegistersAreWritten
  intro instr s t z h hz
  exact exec_getV_of_not_mayWriteV h hz

/-- Settles O17: the other columns, of an instruction that completes by its row and of one that faults by R185. -/
theorem eachStateIsWrittenOnlyByItsInstructions : Obligations.EachStateIsWrittenOnlyByItsInstructions := by
  unfold Obligations.EachStateIsWrittenOnlyByItsInstructions
  intro instr s t h
  have hkeeps := exec_keepsColumns h
  have hmem : (∀ x, instr ≠ .bcd x) → (∀ x, instr ≠ .storeRegs x) → ∀ a, t.mem.read a = s.mem.read a :=
    fun hb hst a => by rw [hkeeps.mem hb hst]
  have hplane : instr ≠ .cls → (∀ x y n, instr ≠ .drw x y n) → ∀ c r, t.plane.cell c r = s.plane.cell c r :=
    fun hc hd c r => by rw [hkeeps.plane hc hd]
  exact ⟨hkeeps.stack, hkeeps.i, hkeeps.dt, hkeeps.st, hmem, hplane, hkeeps.pc, hkeeps.fault, hkeeps.keys,
    hkeeps.draws, hkeeps.schedule, hkeeps.phase⟩

/-- Settles O18: the latch is one of the fields that other instructions pass by. -/
theorem onlyKeyInstructionsReadTheLatch : Obligations.OnlyKeyInstructionsReadTheLatch := by
  unfold Obligations.OnlyKeyInstructionsReadTheLatch
  intro instr s t k down hskp hsknp hwait h
  exact exec_mapAside (fk := fun keys => keys.set k.toNat down k.isLt) (fs := id) (ft := id)
    (.inr ⟨hskp, hsknp, hwait⟩) (.inl rfl) (.inl rfl) h

/-- Settles O19: ST is one of the fields that other instructions pass by. -/
theorem noInstructionReadsTheSoundTimer : Obligations.NoInstructionReadsTheSoundTimer := by
  unfold Obligations.NoInstructionReadsTheSoundTimer
  intro instr s t b hset h
  exact exec_mapAside (fk := id) (fs := id) (ft := fun _ => b) (.inl rfl) (.inl rfl) (.inr hset) h

/-- Settles O20: CALL overwrites the slot at SP, RET reads the one below SP, and all others pass the stack by. -/
theorem staleStackSlotsAreInvisible : Obligations.StaleStackSlotsAreInvisible := by
  unfold Obligations.StaleStackSlotsAreInvisible
  intro instr s t j hj a hsp h
  exact exec_setSlot hj a hsp h

/-- Settles O21, with the canonical form's lower bound at 0. -/
theorem canonicalMemoriesWithEqualBytesAreEqual : Obligations.CanonicalMemoriesWithEqualBytesAreEqual := by
  unfold Obligations.CanonicalMemoriesWithEqualBytesAreEqual
  intro m m' hm hm' hread
  exact Memory.eq_of_read_eq hm hm' hread

/-- Settles O14: Mem is empty, hence canonical, and the fault registers are clear. -/
theorem resetStateMeetsTheInvariant : Obligations.ResetStateMeetsTheInvariant := reset_inv

/-- Settles O15: each reset value of R38, and the Reset event. -/
theorem resetGivesTheResetValues : Obligations.ResetGivesTheResetValues := by
  unfold Obligations.ResetGivesTheResetValues
  intro s
  refine ⟨reset_getV, rfl, rfl, rfl, fun _ => reset_slot, rfl, rfl, fun _ => rfl, reset_cell, reset_keyDown, rfl, rfl,
    fun hnext => ?_⟩
  rw [step_of_event hnext]
  rfl

end Sys2Proof.Proofs
end

section
/-! SUPPORT. Proof of the statement about stores that a fetch sees (20_memory.md). The layer first: a Step that fetches, and the
word two stored registers leave at PC. -/

namespace Sys2Proof.Machine

open Sys2Proof.Safety

/-- A Step of a running engine at a fetchable PC executes the word at PC (R73). -/
theorem step_eq_exec_wordAtPc {s : State} (hnext : s.schedule.next = .step) (hrun : s.halted = false)
    (hpc : s.pc.toNat ≤ 0xFFE) :
    step s = exec (decode (wordAtPc s))
      { s with pc := s.pc + 2#16, schedule := s.schedule.rest, phase := .underway } := by
  rw [step_of_step hnext]
  rcases engineStep_cases s.takeEvent.closeLoad with ⟨hh, -⟩ | ⟨-, hp, -⟩ | ⟨-, -, e⟩
  · exact absurd (hrun.symm.trans hh) nofun
  · exact absurd hp (Nat.not_lt.2 hpc)
  · exact e

/-- Storing V0, V1, ... from I on, with PC at the byte of Vk, leaves Vk and the register after it as the word at PC (R144). -/
theorem wordAtPc_storeFirst {s : State} (hm : s.mem.wf = true) {count k : Nat} (hr : s.i.toNat + count ≤ 4096)
    (hk : k + 1 < count) (hpc : s.pc.toNat = s.i.toNat + k) :
    wordAtPc { s with mem := storeFirst s count } =
      s.getV (BitVec.ofNat 4 k) ++ s.getV (BitVec.ofNat 4 (k + 1)) := by
  have hhi := (storeFirst_read_inside hm hr (Nat.lt_of_succ_lt hk)).2
  have hlo := (storeFirst_read_inside hm hr hk).2
  rw [wordAtPc, hpc, hhi, Nat.add_assoc, hlo]

end Sys2Proof.Machine

namespace Sys2Proof.Proofs

open Sys2Proof.Machine Sys2Proof.Safety

/-- Settles O24: a store inside Mem writes Mem alone, so the next Step is still a running engine's at the same PC, and the word it
fetches is the two registers stored there. -/
theorem storedBytesAreFetchedByTheNextStep : Obligations.StoredBytesAreFetchedByTheNextStep := by
  unfold Obligations.StoredBytesAreFetchedByTheNextStep
  intro s t x k hm hrun hnext hr hk hpc h
  rcases execStoreRegs_cases x s with ⟨-, e⟩ | ⟨hout, -⟩
  · cases e.symm.trans h
    rw [← wordAtPc_storeFirst hm (count := x.toNat + 1) (by omega) (by omega) hpc]
    exact step_eq_exec_wordAtPc hnext hrun (show s.pc.toNat ≤ 0xFFE by omega)
  · omega

end Sys2Proof.Proofs
end

section
/-! SUPPORT. Proofs of the statements about encoding and the instruction cycle (30_encoding.md). The layer first: a word from the
fields that are known of it, the unmatched words, what each branch of the decoder answers, the rows of the opcode map, and a
placed word. Then the obligations. -/

namespace Sys2Proof

/-! ## A word from the fields known of it (R72) -/

section Fields

variable {w : Word} {op n : Nibble} {kk : Byte}

theorem encodeNnn_of_op (hop : fieldOp w = op) : encodeNnn op (fieldNnn w) = w :=
  hop ▸ encodeNnn_fields w

theorem encodeXkk_of_op (hop : fieldOp w = op) : encodeXkk op (fieldX w) (fieldKk w) = w :=
  hop ▸ encodeXkk_fields w

theorem encodeXkk_of_op_kk (hop : fieldOp w = op) (hkk : fieldKk w = kk) : encodeXkk op (fieldX w) kk = w :=
  hkk ▸ encodeXkk_of_op hop

theorem encodeXyn_of_op (hop : fieldOp w = op) : encodeXyn op (fieldX w) (fieldY w) (fieldN w) = w :=
  hop ▸ encodeXyn_fields w

theorem encodeXyn_of_op_n (hop : fieldOp w = op) (hn : fieldN w = n) : encodeXyn op (fieldX w) (fieldY w) n = w :=
  hn ▸ encodeXyn_of_op hop

end Fields

/-- `instr` is a well-formed instruction whose word is `w`. -/
def IsWordOf (w : Word) (instr : Instr) : Prop := instr.wellFormed = true ∧ encode instr = w

/-! ## The unmatched words, by fields (R171) -/

theorem toNat_div_4096 (w : Word) : w.toNat / 4096 = (fieldOp w).toNat := by
  simp only [fieldOp, BitVec.extractLsb'_toNat, Nat.shiftRight_eq_div_pow]
  omega

theorem toNat_mod_16 (w : Word) : w.toNat % 16 = (fieldN w).toNat := by
  simp [fieldN, BitVec.extractLsb'_toNat]

theorem toNat_mod_256 (w : Word) : w.toNat % 256 = (fieldKk w).toNat := by
  simp [fieldKk, BitVec.extractLsb'_toNat]

/-- The list of R171 in the fields of the word. -/
theorem unmatched_iff {w : Word} : unmatched w = true ↔
    (fieldOp w = 0x0#4 ∧ w ≠ 0x00E0#16 ∧ w ≠ 0x00EE#16) ∨
    ((fieldOp w = 0x5#4 ∨ fieldOp w = 0x9#4) ∧ fieldN w ≠ 0x0#4) ∨
    (fieldOp w = 0x8#4 ∧ fieldN w ∈ [0x8#4, 0x9#4, 0xA#4, 0xB#4, 0xC#4, 0xD#4, 0xF#4]) ∨
    (fieldOp w = 0xE#4 ∧ fieldKk w ∉ [0x9E#8, 0xA1#8]) ∨
    (fieldOp w = 0xF#4 ∧
      fieldKk w ∉ [0x07#8, 0x0A#8, 0x15#8, 0x18#8, 0x1E#8, 0x29#8, 0x33#8, 0x55#8, 0x65#8]) := by
  simp only [unmatched, toNat_div_4096, toNat_mod_16, toNat_mod_256, ← BitVec.toNat_inj, List.mem_cons,
    List.not_mem_nil, ne_eq, or_false]
  split <;> simp_all

/-- No instruction but the no-op has an unmatched word: the literal digits of every other word are those of its row. -/
theorem eq_noop_of_unmatched_encode {instr : Instr} (h : unmatched (encode instr) = true) :
    instr = .noop (encode instr) := by
  rw [unmatched_iff] at h
  cases instr
  case noop w => rfl
  case cls | ret => exact absurd h (by decide)
  all_goals simp [encode] at h

/-! ## What the decoder answers (R77) -/

theorem decodeMajor0_isWordOf {w : Word} (hop : fieldOp w = 0x0#4) : IsWordOf w (decodeMajor0 w) := by
  unfold decodeMajor0
  split
  · exact ⟨rfl, Eq.symm ‹_›⟩
  split
  · exact ⟨rfl, Eq.symm ‹_›⟩
  · exact ⟨unmatched_iff.2 (.inl ⟨hop, ‹_›, ‹_›⟩), rfl⟩

theorem decodeMajor8_isWordOf {w : Word} (hop : fieldOp w = 0x8#4) : IsWordOf w (decodeMajor8 w) := by
  unfold decodeMajor8
  split
  case h_10 =>
    have hn : fieldN w ∈ [0x8#4, 0x9#4, 0xA#4, 0xB#4, 0xC#4, 0xD#4, 0xF#4] := by
      simp only [List.mem_cons, List.not_mem_nil, or_false, imp_false] at *
      bv_omega
    exact ⟨unmatched_iff.2 (.inr (.inr (.inl ⟨hop, hn⟩))), rfl⟩
  all_goals exact ⟨rfl, encodeXyn_of_op_n hop ‹_›⟩

theorem decodeMajorE_isWordOf {w : Word} (hop : fieldOp w = 0xE#4) : IsWordOf w (decodeMajorE w) := by
  unfold decodeMajorE
  split
  case h_3 =>
    have hkk : fieldKk w ∉ [0x9E#8, 0xA1#8] := by simp_all
    exact ⟨unmatched_iff.2 (.inr (.inr (.inr (.inl ⟨hop, hkk⟩)))), rfl⟩
  all_goals exact ⟨rfl, encodeXkk_of_op_kk hop ‹_›⟩

theorem decodeMajorF_isWordOf {w : Word} (hop : fieldOp w = 0xF#4) : IsWordOf w (decodeMajorF w) := by
  unfold decodeMajorF
  split
  case h_10 =>
    have hkk : fieldKk w ∉ [0x07#8, 0x0A#8, 0x15#8, 0x18#8, 0x1E#8, 0x29#8, 0x33#8, 0x55#8, 0x65#8] := by simp_all
    exact ⟨unmatched_iff.2 (.inr (.inr (.inr (.inr ⟨hop, hkk⟩)))), rfl⟩
  all_goals exact ⟨rfl, encodeXkk_of_op_kk hop ‹_›⟩

/-- Whatever a word decodes to, it is the word of: each branch reads the fields that the encoder writes. -/
theorem decode_isWordOf (w : Word) : IsWordOf w (decode w) := by
  unfold decode
  split
  case h_1 hop => exact decodeMajor0_isWordOf hop
  case h_2 hop | h_3 hop | h_11 hop | h_12 hop => exact ⟨rfl, encodeNnn_of_op hop⟩
  case h_4 hop | h_5 hop | h_7 hop | h_8 hop | h_13 hop => exact ⟨rfl, encodeXkk_of_op hop⟩
  case h_6 hop =>
    split
    · exact ⟨rfl, encodeXyn_of_op_n hop ‹_›⟩
    · exact ⟨unmatched_iff.2 (.inr (.inl ⟨.inl hop, ‹_›⟩)), rfl⟩
  case h_9 hop => exact decodeMajor8_isWordOf hop
  case h_10 hop =>
    split
    · exact ⟨rfl, encodeXyn_of_op_n hop ‹_›⟩
    · exact ⟨unmatched_iff.2 (.inr (.inl ⟨.inr hop, ‹_›⟩)), rfl⟩
  case h_14 hop => exact ⟨rfl, encodeXyn_of_op hop⟩
  case h_15 hop => exact decodeMajorE_isWordOf hop
  case h_16 =>
    have hop : fieldOp w = 0xF#4 := by
      simp only [imp_false] at *
      bv_omega
    exact decodeMajorF_isWordOf hop

/-- Decoding reads every instruction back from its word. A no-op's word is unmatched, and so is of no other instruction. -/
theorem decode_encode {instr : Instr} (hwf : instr.wellFormed = true) : decode (encode instr) = instr := by
  cases instr
  case noop w =>
    obtain ⟨-, henc⟩ := decode_isWordOf w
    have hnoop : decode w = .noop (encode (decode w)) :=
      eq_noop_of_unmatched_encode ((congrArg unmatched henc).trans hwf)
    exact hnoop.trans (congrArg Instr.noop henc)
  case cls | ret => rfl
  case ldReg | orReg | andReg | xorReg | addReg | subReg | shr | subnReg | shl => simp [encode, decode, decodeMajor8]
  case skp | sknp => simp [encode, decode, decodeMajorE]
  case readDt | waitKey | setDt | setSt | addI | ldGlyph | bcd | storeRegs | loadRegs =>
    simp [encode, decode, decodeMajorF]
  all_goals simp [encode, decode]

/-- An instruction is what a word decodes to when the word is its. -/
theorem IsWordOf.decode_eq {w : Word} {instr : Instr} (h : IsWordOf w instr) : decode w = instr := by
  obtain ⟨hwf, rfl⟩ := h
  exact decode_encode hwf

/-! ## The opcode map (R74, R76) -/

section Rows

variable {w pattern : Word} {op n : Nibble} {kk : Byte}

theorem encodeNnn_of_mask (h : w &&& 0xF000#16 = pattern) (hop : fieldOp pattern = op) :
    encodeNnn op (fieldNnn w) = w :=
  encodeNnn_of_op ((fieldOp_of_mask h rfl).trans hop)

theorem encodeXkk_of_mask (h : w &&& 0xF000#16 = pattern) (hop : fieldOp pattern = op) :
    encodeXkk op (fieldX w) (fieldKk w) = w :=
  encodeXkk_of_op ((fieldOp_of_mask h rfl).trans hop)

theorem encodeXm_of_mask (h : w &&& 0xF0FF#16 = pattern) (hop : fieldOp pattern = op) (hkk : fieldKk pattern = kk) :
    encodeXkk op (fieldX w) kk = w :=
  encodeXkk_of_op_kk ((fieldOp_of_mask h rfl).trans hop) ((fieldKk_of_mask h rfl).trans hkk)

theorem encodeXy_of_mask (h : w &&& 0xF00F#16 = pattern) (hop : fieldOp pattern = op) (hn : fieldN pattern = n) :
    encodeXyn op (fieldX w) (fieldY w) n = w :=
  encodeXyn_of_op_n ((fieldOp_of_mask h rfl).trans hop) ((fieldN_of_mask h rfl).trans hn)

theorem encodeXyn_of_mask (h : w &&& 0xF000#16 = pattern) (hop : fieldOp pattern = op) :
    encodeXyn op (fieldX w) (fieldY w) (fieldN w) = w :=
  encodeXyn_of_op ((fieldOp_of_mask h rfl).trans hop)

theorem pattern_of_full_mask (h : w &&& 0xFFFF#16 = pattern) : pattern = w :=
  h.symm.trans BitVec.and_allOnes

end Rows

/-- A word that meets the row's mask and match is the word of the row's instruction, with the fields of that word. -/
def OpcodeRow.ReadsBack (r : OpcodeRow) : Prop := ∀ w : Word, w &&& r.mask = r.pattern → IsWordOf w (r.instr w)

theorem opcodeRowsFlow_readBack : ∀ r ∈ opcodeRowsFlow, r.ReadsBack := by
  simp only [opcodeRowsFlow, List.forall_mem_cons]
  and_intros
  iterate 2 exact fun _ h => ⟨rfl, pattern_of_full_mask h⟩
  iterate 2 exact fun _ h => ⟨rfl, encodeNnn_of_mask h rfl⟩
  iterate 2 exact fun _ h => ⟨rfl, encodeXkk_of_mask h rfl⟩
  iterate 2 exact fun _ h => ⟨rfl, encodeXy_of_mask h rfl rfl⟩
  exact List.forall_mem_nil _

theorem opcodeRowsAlu_readBack : ∀ r ∈ opcodeRowsAlu, r.ReadsBack := by
  simp only [opcodeRowsAlu, List.forall_mem_cons]
  and_intros
  iterate 2 exact fun _ h => ⟨rfl, encodeXkk_of_mask h rfl⟩
  iterate 9 exact fun _ h => ⟨rfl, encodeXy_of_mask h rfl rfl⟩
  exact List.forall_mem_nil _

theorem opcodeRowsRest_readBack : ∀ r ∈ opcodeRowsRest, r.ReadsBack := by
  simp only [opcodeRowsRest, List.forall_mem_cons]
  and_intros
  iterate 2 exact fun _ h => ⟨rfl, encodeNnn_of_mask h rfl⟩
  · exact fun _ h => ⟨rfl, encodeXkk_of_mask h rfl⟩
  · exact fun _ h => ⟨rfl, encodeXyn_of_mask h rfl⟩
  iterate 11 exact fun _ h => ⟨rfl, encodeXm_of_mask h rfl rfl⟩
  exact List.forall_mem_nil _

theorem opcodeTable_readsBack : ∀ r ∈ opcodeTable, r.ReadsBack := by
  simp only [opcodeTable, List.forall_mem_append]
  exact ⟨⟨opcodeRowsFlow_readBack, opcodeRowsAlu_readBack⟩, opcodeRowsRest_readBack⟩

/-- Two rows whose matches differ on the bits that both masks keep have no word in common. -/
theorem not_both_of_patterns_ne {w mask pattern mask' pattern' : Word} (hne : pattern &&& mask' ≠ pattern' &&& mask) :
    ¬ (w &&& mask = pattern ∧ w &&& mask' = pattern') := by
  rintro ⟨rfl, rfl⟩
  exact hne (by ac_rfl)

theorem opcodeTable_patterns_ne :
    opcodeTable.Pairwise fun r q => r.pattern &&& q.mask ≠ q.pattern &&& r.mask := by
  decide

open Laws.EncodesItsRow in
/-- The word of every instruction meets its row: the literal digits of its format. -/
theorem encode_and_mask (instr : Instr) : encode instr &&& (rowOf instr).1 = (rowOf instr).2 := by
  cases instr
  case cls | ret => rfl
  case jp nnn | call nnn | ldI nnn | jpV0 nnn => exact mask_nnn _ nnn
  case seImm x kk | sneImm x kk | ldImm x kk | addImm x kk | rnd x kk => exact mask_xkk _ x kk
  case drw x y n => exact mask_xyn _ x y n
  case skp x | sknp x | readDt x | waitKey x | setDt x | setSt x | addI x | ldGlyph x | bcd x | storeRegs x | loadRegs x =>
    exact mask_xm _ x _
  case noop w => exact BitVec.and_zero
  case seReg x y | sneReg x y | ldReg x y | orReg x y | andReg x y | xorReg x y | addReg x y | subReg x y | shr x y |
      subnReg x y | shl x y =>
    exact mask_xy _ x y _

open Laws.EncodesItsRow in
/-- The row of every instruction but the no-op stands in the opcode map. -/
theorem rowOf_mem_opcodeTable {instr : Instr} (hne : ∀ w, instr ≠ .noop w) :
    ∃ r ∈ opcodeTable, (r.mask, r.pattern) = rowOf instr := by
  rw [← List.mem_map]
  cases instr
  case noop w => exact absurd rfl (hne w)
  all_goals simp [rowOf, opcodeTable, opcodeRowsFlow, opcodeRowsAlu, opcodeRowsRest]

/-- The word of every instruction but the no-op meets a row of the opcode map. -/
theorem exists_row_of_encode {instr : Instr} (hne : ∀ w, instr ≠ .noop w) :
    ∃ r ∈ opcodeTable, encode instr &&& r.mask = r.pattern := by
  obtain ⟨r, hr, hrow⟩ := rowOf_mem_opcodeTable hne
  have hmask := encode_and_mask instr
  rw [← hrow] at hmask
  exact ⟨r, hr, hmask⟩

/-- A word that meets no row decodes to its no-op: whatever it decodes to, it is the word of. -/
theorem decode_of_meets_no_row {w : Word} (h : ∀ r ∈ opcodeTable, w &&& r.mask ≠ r.pattern) : decode w = .noop w := by
  obtain ⟨-, henc⟩ := decode_isWordOf w
  by_contra hne
  have hne' : ∀ w', decode w ≠ .noop w' := by
    intro w' hw'
    rw [hw'] at henc
    exact hne (hw'.trans (congrArg Instr.noop henc))
  obtain ⟨r, hr, hmeets⟩ := exists_row_of_encode hne'
  exact h r hr (henc ▸ hmeets)

end Sys2Proof

namespace Sys2Proof.Machine

open Sys2Proof.Safety

/-! ## A placed word (log 3) -/

theorem tableWordBytes_of_toNat (w : Word) : tableWordBytes 16 w.toNat = [hiByte w, loByte w] := by
  simp only [tableWordBytes, Nat.mod_eq_of_lt w.isLt, BitVec.ofNat_toNat, BitVec.setWidth_eq]

theorem fetchPlace_le (s : State) : (fetchPlace s).toNat ≤ 0xFFE := by
  unfold fetchPlace
  split <;> rename_i h
  · rw [lastAddress_eq] at h; omega
  · decide

/-- The word at the PC of a state in which a word was placed is that word. -/
theorem wordAtPc_withFetchWord {s : State} (hm : s.mem.wf = true) (w : Word) :
    wordAtPc (s.withFetchWord 16 w.toNat) = w := by
  have hplace := fetchPlace_le s
  have hfits : (fetchPlace s).toNat + [hiByte w, loByte w].length ≤ Config.memSize := by
    simp only [List.length_cons, List.length_nil, memSize_eq]; omega
  have hhi := Memory.read_writeBytes_inside hm hfits (k := 0) (by simp)
  have hlo := Memory.read_writeBytes_inside hm hfits (k := 1) (by simp)
  simp only [wordAtPc, State.withFetchWord, placeWord, tableWordBytes_of_toNat]
  exact (congrArg₂ wordOfBytes hhi hlo).trans (wordOfBytes_hi_lo w)

end Sys2Proof.Machine

namespace Sys2Proof.Proofs

open Sys2Proof.Machine Sys2Proof.Safety

/-- Settles O1: every format gives its operands back, and a no-op's word is of no other instruction. -/
theorem decodeOfEncodeIsIdentity : Obligations.DecodeOfEncodeIsIdentity := by
  unfold Obligations.DecodeOfEncodeIsIdentity
  intro instr hwf
  exact decode_encode hwf

/-- Settles O2: every branch of the decoder answers an instruction of which the word is the encoding. -/
theorem encodeOfDecodeIsIdentity : Obligations.EncodeOfDecodeIsIdentity := by
  unfold Obligations.EncodeOfDecodeIsIdentity
  exact decode_isWordOf

/-- Settles O3: a word that meets a row is the word of the row's instruction, any two rows differ on a bit that both masks keep,
and every instruction but the no-op has a row. -/
theorem wordsDecodeAsTheOpcodeMapSays : Obligations.WordsDecodeAsTheOpcodeMapSays := by
  unfold Obligations.WordsDecodeAsTheOpcodeMapSays
  refine ⟨fun r hr w h => ?_, ?_, rfl, fun w hnone => decode_of_meets_no_row hnone⟩
  · exact (opcodeTable_readsBack r hr w h).decode_eq
  · exact opcodeTable_patterns_ne.imp fun hne w => not_both_of_patterns_ne hne

/-- Settles O9: a Step leaves the order of events and the phase as taking the event and closing the Load left them. -/
theorem everyEngineStepAnswersAState : Obligations.EveryEngineStepAnswersAState := by
  unfold Obligations.EveryEngineStepAnswersAState
  intro s hnext
  rw [step_of_step hnext]
  exact engineStep_next s.takeEvent.closeLoad

/-- Settles O4: the ten words, evaluated. -/
theorem sampleWordsDecodeToTheirInstructions : Obligations.SampleWordsDecodeToTheirInstructions := by
  unfold Obligations.SampleWordsDecodeToTheirInstructions
  decide

/-- Settles O5: a placed word is the word at PC of a running engine whose Step is next. -/
theorem placedWordIsTheNextInstruction : Obligations.PlacedWordIsTheNextInstruction := by
  unfold Obligations.PlacedWordIsTheNextInstruction
  intro s w hm
  have hstep := step_eq_exec_wordAtPc (s := s.withFetchWord 16 w.toNat) rfl rfl (fetchPlace_le s)
  rwa [wordAtPc_withFetchWord hm] at hstep

/-- Settles O7: the word at PC is the big-endian pair of the two bytes there. -/
theorem stepRunsTheDecodedInstruction : Obligations.StepRunsTheDecodedInstruction := by
  unfold Obligations.StepRunsTheDecodedInstruction
  rintro s instr hnext hrun hpc rfl
  exact step_eq_exec_wordAtPc hnext hrun hpc

end Sys2Proof.Proofs
end

section
/-! SUPPORT. Proofs of the statements about control transfer (40_control_transfer.md). The layer first: what the two jump targets
are as numbers, and a RET on the state that a CALL answers. Then the obligations. -/

namespace Sys2Proof.Machine

/-! ## Jump targets (R75, R103) -/

@[simp] theorem zext16_toNat (nnn : Addr12) : (zext16 nnn).toNat = nnn.toNat :=
  BitVec.toNat_setWidth_of_le (by decide)

/-- The greatest sum, 0xFFF + 0xFF, fits 16 bits. -/
@[simp] theorem indexedTarget_toNat (nnn : Addr12) (v0 : Byte) :
    (indexedTarget nnn v0).toNat = nnn.toNat + v0.toNat := by
  have hfits : nnn.toNat + v0.toNat < 2 ^ 16 := by omega
  rw [indexedTarget, BitVec.toNat_ofNat, Nat.mod_eq_of_lt hfits]

/-! ## RET behind CALL (R100, R102) -/

/-- A CALL's own slot is the one that RET pops, wherever the subroutine has taken the PC. -/
theorem execRet_of_execCall {s t : State} (hsp : s.sp.val < 16) (nnn : Addr12) (p : Word)
    (hcall : execCall nnn s = .next t) : execRet { t with pc := p } = .next { s with stack := t.stack } := by
  cases (execCall_of_lt hsp nnn).symm.trans hcall
  have hslot : (s.stack.set s.sp.val s.pc hsp)[s.sp.val] = s.pc := Vector.getElem_set_self hsp
  rw [execRet_of_pos (Nat.succ_pos s.sp.val)]
  simp [hslot]

end Sys2Proof.Machine

namespace Sys2Proof.Proofs

open Sys2Proof.Machine Sys2Proof.Safety

/-- Settles O27: with room, the push writes the slot at SP alone and the PC is the zero-extended field; at SP = 16 it is refused
before any write. -/
theorem callPushesTheReturnAddressOrOverflows : Obligations.CallPushesTheReturnAddressOrOverflows := by
  unfold Obligations.CallPushesTheReturnAddressOrOverflows
  refine ⟨fun w h => IsWordOf.decode_eq ⟨rfl, encodeNnn_of_mask h rfl⟩, fun nnn s => ⟨fun hsp => ?_, fun hfull => ?_⟩⟩
  · exact ⟨_, execCall_of_lt hsp nnn, Vector.getElem_set_self hsp,
      fun j hj hne => Vector.getElem_set_ne hsp hj hne.symm, rfl, zext16_toNat nnn, rfl⟩
  · exact execCall_of_full hfull nnn

/-- Settles O28: above 0 the pop lowers SP and answers the slot at the new SP; at 0 it is refused before any write. -/
theorem returnPopsThePcOrUnderflows : Obligations.ReturnPopsThePcOrUnderflows := by
  unfold Obligations.ReturnPopsThePcOrUnderflows
  refine ⟨fun w h => IsWordOf.decode_eq ⟨rfl, pattern_of_full_mask h⟩, fun s => ⟨fun hpos => ?_, fun hempty => ?_⟩⟩
  · exact ⟨_, execRet_of_pos hpos, rfl, rfl, rfl⟩
  · exact execRet_of_empty hempty

/-- Settles O29: the slot that RET pops is the one the CALL wrote. -/
theorem returnComesBackBehindTheCall : Obligations.ReturnComesBackBehindTheCall := by
  unfold Obligations.ReturnComesBackBehindTheCall
  intro nnn s t p hsp hcall
  exact execRet_of_execCall hsp nnn p hcall

/-- Settles O25: the PC set is the zero-extended field. -/
theorem jumpSetsPcToTheField : Obligations.JumpSetsPcToTheField := by
  unfold Obligations.JumpSetsPcToTheField
  refine ⟨fun w h => IsWordOf.decode_eq ⟨rfl, encodeNnn_of_mask h rfl⟩, fun nnn s => ?_⟩
  exact ⟨s.setPc (zext16 nnn), rfl, zext16_toNat nnn, rfl⟩

/-- Settles O26: the sum of a 12-bit field and a byte needs no reduction to 16 bits. -/
theorem indexedJumpAddsV0Unreduced : Obligations.IndexedJumpAddsV0Unreduced := by
  unfold Obligations.IndexedJumpAddsV0Unreduced
  refine ⟨fun w h => IsWordOf.decode_eq ⟨rfl, encodeNnn_of_mask h rfl⟩, fun nnn s => ?_⟩
  exact ⟨s.setPc (indexedTarget nnn (s.getV 0x0#4)), rfl, indexedTarget_toNat nnn _, rfl⟩

end Sys2Proof.Proofs
end

section
/-! SUPPORT. Proofs of the statements about the skips on a byte and on two registers (41_skips.md). The layer first: what a skip
on equality and a skip on inequality answer. Then the obligations. -/

namespace Sys2Proof.Machine

/-! ## Skips on a comparison of bytes (R110) -/

theorem skipIf_beq (a b : Byte) (s : State) :
    skipIf (a == b) s = .next (s.setPc (if a = b then s.pc + 2#16 else s.pc)) := by
  rw [skipIf_next_iff]
  simp only [beq_iff_eq]

/-- The complement of `skipIf_beq`: the same test, with its two answers exchanged. -/
theorem skipIf_bne (a b : Byte) (s : State) :
    skipIf (a != b) s = .next (s.setPc (if a = b then s.pc else s.pc + 2#16)) := by
  rw [skipIf_next_iff]
  simp only [bne_iff_ne, ne_eq, ite_not]

end Sys2Proof.Machine

namespace Sys2Proof.Proofs

open Sys2Proof.Machine

/-- Settles O30: both compare Vx with the byte, SE for equality and SNE for its complement. -/
theorem immediateSkipsCompareVxWithTheByte : Obligations.ImmediateSkipsCompareVxWithTheByte := by
  unfold Obligations.ImmediateSkipsCompareVxWithTheByte
  refine ⟨fun w h => ?_, fun w h => ?_, fun x kk s => ⟨?_, ?_⟩⟩
  · exact IsWordOf.decode_eq ⟨rfl, encodeXkk_of_mask h rfl⟩
  · exact IsWordOf.decode_eq ⟨rfl, encodeXkk_of_mask h rfl⟩
  · exact skipIf_beq (s.getV x) kk s
  · exact skipIf_bne (s.getV x) kk s

/-- Settles O31: both compare Vx with Vy, SE for equality and SNE for its complement. -/
theorem registerSkipsCompareVxWithVy : Obligations.RegisterSkipsCompareVxWithVy := by
  unfold Obligations.RegisterSkipsCompareVxWithVy
  refine ⟨fun w h => ?_, fun w h => ?_, fun x y s => ⟨?_, ?_⟩⟩
  · exact IsWordOf.decode_eq ⟨rfl, encodeXy_of_mask h rfl rfl⟩
  · exact IsWordOf.decode_eq ⟨rfl, encodeXy_of_mask h rfl rfl⟩
  · exact skipIf_beq (s.getV x) (s.getV y) s
  · exact skipIf_bne (s.getV x) (s.getV y) s

end Sys2Proof.Proofs
end

section
/-! SUPPORT. Proofs of the statements about register load, arithmetic, logic, shifts and random (42_register_alu.md). The layer
first: the flags, differences and shifts as numbers, and what a write of Vx, with or without a flag, leaves alone. Then the
obligations. -/

namespace Sys2Proof.Machine

/-! ## Flags as numbers (R22) -/

@[simp] theorem flagByte_toNat (b : Bool) : (flagByte b).toNat = b.toNat := by
  cases b <;> rfl

@[simp] theorem carryFlag_toNat (vx vy : Byte) :
    (carryFlag vx vy).toNat = if vx.toNat + vy.toNat > 255 then 1 else 0 := by
  rw [carryFlag, flagByte_toNat, Bool.toNat, Bool.cond_decide]

@[simp] theorem noBorrowFlag_toNat (minuend subtrahend : Byte) :
    (noBorrowFlag minuend subtrahend).toNat = if minuend.toNat > subtrahend.toNat then 1 else 0 := by
  rw [noBorrowFlag, flagByte_toNat, Bool.toNat, Bool.cond_decide]

@[simp] theorem shiftedOutLow_toNat (vx : Byte) : (shiftedOutLow vx).toNat = vx.toNat % 2 := by
  rw [shiftedOutLow, flagByte_toNat, BitVec.getLsbD, Nat.toNat_testBit, pow_zero, Nat.div_one]

/-- Bit 7 is a byte's quotient by 128, which is below 2. -/
@[simp] theorem shiftedOutHigh_toNat (vx : Byte) : (shiftedOutHigh vx).toNat = vx.toNat / 128 := by
  have hlt : vx.toNat / 128 < 2 := by omega
  rw [shiftedOutHigh, flagByte_toNat, BitVec.getLsbD, Nat.toNat_testBit]
  exact Nat.mod_eq_of_lt hlt

/-! ## Results as numbers (R127 to R130, R132) -/

/-- The 256 added to the minuend keeps the natural subtraction from stopping at 0. -/
theorem toNat_sub_byte (a b : Byte) : (a - b).toNat = (a.toNat + 256 - b.toNat) % 256 := by
  rw [BitVec.toNat_sub]
  omega

theorem toNat_shiftRight_one (a : Byte) : (a >>> 1).toNat = a.toNat / 2 := by
  rw [BitVec.toNat_ushiftRight, Nat.shiftRight_eq_div_pow, pow_one]

theorem toNat_shiftLeft_one (a : Byte) : (a <<< 1).toNat = a.toNat * 2 % 256 := by
  rw [BitVec.toNat_shiftLeft, Nat.shiftLeft_eq, pow_one]

/-! ## What is written and what is left alone (R41) -/

theorem State.setV_writes_vx_alone (s : State) (x : Nibble) (b : Byte) :
    (∀ z, z ≠ x → (s.setV x b).getV z = s.getV z) ∧ s.setV x b = { s with v := (s.setV x b).v } :=
  ⟨fun _ hz => State.getV_setV_other s b hz, rfl⟩

/-- An instruction that writes a flag and then a result, seen from outside: Vx is the result, VF the flag unless it is Vx, and
nothing else is changed. -/
theorem exists_next_of_writeFlagThenResult {o : Result} {x : Nibble} {flag result : Byte} {s : State} {f r : Nat}
    (ho : o = .next (writeFlagThenResult x flag result s)) (hr : result.toNat = r) (hf : flag.toNat = f) :
    ∃ t, o = .next t ∧ (t.getV x).toNat = r ∧ (x ≠ 0xF#4 → (t.getV 0xF#4).toNat = f) ∧
      (∀ z, z ≠ x → z ≠ 0xF#4 → t.getV z = s.getV z) ∧ t = { s with v := t.v } := by
  refine ⟨_, ho, ?_, fun hx => ?_, fun z hzx hzF => ?_, writeFlagThenResult_frame x flag result s⟩
  · rw [writeFlagThenResult_getV, if_pos rfl, hr]
  · rw [writeFlagThenResult_getV, if_neg hx.symm, if_pos rfl, hf]
  · rw [writeFlagThenResult_getV, if_neg hzx, if_neg hzF]

end Sys2Proof.Machine

namespace Sys2Proof.Proofs

open Sys2Proof.Machine

/-- Settles O34: each writes Vx alone, with a bitwise operation of the two registers. -/
theorem copyAndLogicWriteVxAlone : Obligations.CopyAndLogicWriteVxAlone := by
  unfold Obligations.CopyAndLogicWriteVxAlone
  refine ⟨fun w h => ?_, fun w h => ?_, fun w h => ?_, fun w h => ?_, fun x y s => ⟨?_, ?_, ?_, ?_⟩⟩
  iterate 4 exact IsWordOf.decode_eq ⟨rfl, encodeXy_of_mask h rfl rfl⟩
  · exact ⟨_, rfl, State.getV_setV_same s x _, State.setV_writes_vx_alone s x _⟩
  · refine ⟨_, rfl, fun b => ?_, State.setV_writes_vx_alone s x _⟩
    rw [State.getV_setV_same, BitVec.getLsbD_or, Bool.or_eq_true]
  · refine ⟨_, rfl, fun b => ?_, State.setV_writes_vx_alone s x _⟩
    rw [State.getV_setV_same, BitVec.getLsbD_and, Bool.and_eq_true]
  · refine ⟨_, rfl, fun b => ?_, State.setV_writes_vx_alone s x _⟩
    rw [State.getV_setV_same, BitVec.getLsbD_xor, bne_iff_ne]

/-- Settles O35: the flag is the carry of the unbounded sum, the result the sum modulo 256. -/
theorem addWritesSumAndCarry : Obligations.AddWritesSumAndCarry := by
  unfold Obligations.AddWritesSumAndCarry
  refine ⟨fun w h => IsWordOf.decode_eq ⟨rfl, encodeXy_of_mask h rfl rfl⟩, fun x y s => ?_⟩
  exact exists_next_of_writeFlagThenResult rfl (BitVec.toNat_add _ _) (carryFlag_toNat _ _)

/-- Settles O36: SUBN is SUB with the two operands exchanged, in the difference and in the comparison. -/
theorem subtractionsWriteDifferenceAndStrictComparison :
    Obligations.SubtractionsWriteDifferenceAndStrictComparison := by
  unfold Obligations.SubtractionsWriteDifferenceAndStrictComparison
  refine ⟨fun w h => ?_, fun w h => ?_, fun x y s => ⟨?_, ?_⟩⟩
  iterate 2 exact IsWordOf.decode_eq ⟨rfl, encodeXy_of_mask h rfl rfl⟩
  · exact exists_next_of_writeFlagThenResult rfl (toNat_sub_byte _ _) (noBorrowFlag_toNat _ _)
  · exact exists_next_of_writeFlagThenResult rfl (toNat_sub_byte _ _) (noBorrowFlag_toNat _ _)

/-- Settles O37: the shifts halve and double; the bits lost are the remainder by 2 and the quotient by 128. -/
theorem shiftsWriteVxAndTheLostBit : Obligations.ShiftsWriteVxAndTheLostBit := by
  unfold Obligations.ShiftsWriteVxAndTheLostBit
  refine ⟨fun w h => ?_, fun w h => ?_, fun x y s => ⟨?_, ?_⟩⟩
  iterate 2 exact IsWordOf.decode_eq ⟨rfl, encodeXy_of_mask h rfl rfl⟩
  · exact exists_next_of_writeFlagThenResult rfl (toNat_shiftRight_one _) (shiftedOutLow_toNat _)
  · exact exists_next_of_writeFlagThenResult rfl (toNat_shiftLeft_one _) (shiftedOutHigh_toNat _)

/-- Settles O38: the byte drawn is the one at the old count, and the write of Vx follows the draw. -/
theorem randomByteIsMaskedAndDrawnAfresh : Obligations.RandomByteIsMaskedAndDrawnAfresh := by
  unfold Obligations.RandomByteIsMaskedAndDrawnAfresh
  refine ⟨fun w h => IsWordOf.decode_eq ⟨rfl, encodeXkk_of_mask h rfl⟩, fun x kk s => ?_⟩
  refine ⟨(drawByte s).2.setV x (kk &&& Config.rand8 s.draws), rfl, fun b => ?_, rfl, fun z hz => ?_, rfl⟩
  · rw [State.getV_setV_same, BitVec.getLsbD_and, Bool.and_eq_true]
  · exact State.getV_setV_other (drawByte s).2 _ hz

/-- Settles O33: each writes Vx alone, with the byte or with the sum modulo 256. -/
theorem immediateLoadAndAddWriteVxAlone : Obligations.ImmediateLoadAndAddWriteVxAlone := by
  unfold Obligations.ImmediateLoadAndAddWriteVxAlone
  refine ⟨fun w h => ?_, fun w h => ?_, fun x kk s => ⟨?_, ?_⟩⟩
  iterate 2 exact IsWordOf.decode_eq ⟨rfl, encodeXkk_of_mask h rfl⟩
  · exact ⟨_, rfl, State.getV_setV_same s x kk, State.setV_writes_vx_alone s x kk⟩
  · refine ⟨_, rfl, ?_, State.setV_writes_vx_alone s x _⟩
    rw [State.getV_setV_same, BitVec.toNat_add]

end Sys2Proof.Proofs
end

section
/-! SUPPORT. Proofs of the statements about the index register and memory (43_index_memory.md). The layer first: addresses and
digits as numbers, a ranged access inside and outside Mem, the bytes a transfer leaves. Then the obligations. -/

namespace Sys2Proof.Machine

open Sys2Proof.Safety

/-! ## Addresses and digits as numbers (R141 to R143) -/

@[simp] theorem indexPlus_toNat (a : Word) (vx : Byte) : (indexPlus a vx).toNat = (a.toNat + vx.toNat) % 65536 := by
  rw [indexPlus, BitVec.toNat_add, BitVec.toNat_setWidth_of_le (by decide)]

/-- The greatest glyph address, 0x050 + 5 * 0xFF, fits 16 bits. -/
@[simp] theorem glyphAddress_toNat (vx : Byte) : (glyphAddress vx).toNat = 0x050 + vx.toNat * 5 := by
  have hfits : 0x050 + vx.toNat * 5 < 2 ^ 16 := by omega
  rw [glyphAddress, glyphBase_eq, glyphHeight_eq, BitVec.toNat_ofNat, Nat.mod_eq_of_lt hfits]

@[simp] theorem hundreds_toNat (vx : Byte) : (hundreds vx).toNat = vx.toNat / 100 := by
  have hfits : vx.toNat / 100 < 2 ^ 8 := by omega
  rw [hundreds, BitVec.toNat_ofNat, Nat.mod_eq_of_lt hfits]

@[simp] theorem tens_toNat (vx : Byte) : (tens vx).toNat = vx.toNat / 10 % 10 := by
  have hfits : vx.toNat / 10 % 10 < 2 ^ 8 := by omega
  rw [tens, BitVec.toNat_ofNat, Nat.mod_eq_of_lt hfits]

@[simp] theorem ones_toNat (vx : Byte) : (ones vx).toNat = vx.toNat % 10 := by
  have hfits : vx.toNat % 10 < 2 ^ 8 := by omega
  rw [ones, BitVec.toNat_ofNat, Nat.mod_eq_of_lt hfits]

/-! ## A ranged access, inside and outside Mem (R191) -/

theorem withDataRange_of_le {last : Nat} {s : State} (h : s.i.toNat + last ≤ 0xFFF) (access : State) :
    withDataRange last s access = .next access := by
  rcases withDataRange_cases last s access with ⟨-, e⟩ | ⟨hgt, -⟩
  · exact e
  · omega

theorem withDataRange_of_gt {last : Nat} {s : State} (h : 0xFFF < s.i.toNat + last) (access : State) :
    withDataRange last s access = .next (haltedBy .dataAddressOutOfRange s) := by
  rcases withDataRange_cases last s access with ⟨hle, -⟩ | ⟨-, e⟩
  · omega
  · exact e

/-- An access that answers and lies inside Mem has answered the access itself. -/
theorem eq_of_withDataRange {last : Nat} {s access t : State} (hnext : withDataRange last s access = .next t)
    (h : s.i.toNat + last ≤ 0xFFF) : t = access :=
  Host.Outcome.next.inj (hnext.symm.trans (withDataRange_of_le h access))

/-! ## The bytes of a transfer (R143 to R145) -/

/-- Each digit is read back from its own byte: the writes after it are to other bytes. -/
theorem writeDigits_read_inside {s : State} (hm : s.mem.wf = true) (hr : s.i.toNat + 2 ≤ 0xFFF) (vx : Byte) :
    (writeDigits vx s).read s.i.toNat = hundreds vx ∧ (writeDigits vx s).read (s.i.toNat + 1) = tens vx ∧
      (writeDigits vx s).read (s.i.toNat + 2) = ones vx := by
  have hm1 := Memory.wf_write hm (a := s.i.toNat + 0) (by rw [memSize_eq]; omega) (hundreds vx)
  have hm2 := Memory.wf_write hm1 (a := s.i.toNat + 1) (by rw [memSize_eq]; omega) (tens vx)
  simp only [writeDigits, effectiveAddress]
  refine ⟨?_, ?_, Memory.read_write_same hm2 _ _⟩
  · rw [Memory.read_write_other _ _ (by omega), Memory.read_write_other _ _ (by omega)]
    exact Memory.read_write_same hm _ _
  · rw [Memory.read_write_other _ _ (by omega)]
    exact Memory.read_write_same hm1 _ _

/-- `storeFirst_read_inside` by the register's own number. -/
theorem storeFirst_read_getV {s : State} (hm : s.mem.wf = true) {count : Nat} (hr : s.i.toNat + count ≤ 4096)
    {z : Nibble} (hz : z.toNat < count) : (storeFirst s count).read (s.i.toNat + z.toNat) = s.getV z := by
  have hread := (storeFirst_read_inside hm hr hz).2
  rwa [BitVec.ofNat_toNat, BitVec.setWidth_eq] at hread

@[simp] theorem loadFirst_i (s : State) (count : Nat) : (loadFirst s count).i = s.i := by
  rw [loadFirst_frame]

/-- V0 to Vx loaded, x inclusive. -/
theorem loadFirst_succ_getV (s : State) (x z : Nibble) :
    (loadFirst s (x.toNat + 1)).getV z =
      if z.toNat ≤ x.toNat then s.mem.read (s.i.toNat + z.toNat) else s.getV z := by
  rw [loadFirst_getV s x.isLt]
  exact if_congr Nat.lt_succ_iff rfl rfl

end Sys2Proof.Machine

namespace Sys2Proof.Proofs

open Sys2Proof.Machine Sys2Proof.Safety

/-- Settles O41: inside Mem the three digits are the only bytes written; outside, the range test comes before any write. -/
theorem decimalStoreWritesThreeDigits : Obligations.DecimalStoreWritesThreeDigits := by
  unfold Obligations.DecimalStoreWritesThreeDigits
  refine ⟨fun w h => IsWordOf.decode_eq ⟨rfl, encodeXm_of_mask h rfl rfl⟩, fun x s hm => ⟨fun hin => ?_, fun hout => ?_⟩⟩
  · obtain ⟨h0, h1, h2⟩ := writeDigits_read_inside hm hin (s.getV x)
    refine ⟨s.setMem (writeDigits (s.getV x) s), withDataRange_of_le hin _, ?_, ?_, ?_, ?_, rfl⟩
    · rw [State.setMem_mem, h0, hundreds_toNat]
    · rw [State.setMem_mem, h1, tens_toNat]
    · rw [State.setMem_mem, h2, ones_toNat]
    · exact fun a ha => writeDigits_read_outside s _ ha
  · exact withDataRange_of_gt hout _

/-- Settles O42: inside Mem the stored range is x + 1 bytes from I, one for each register. -/
theorem registerStoreWritesV0ToVx : Obligations.RegisterStoreWritesV0ToVx := by
  unfold Obligations.RegisterStoreWritesV0ToVx
  refine ⟨fun w h => IsWordOf.decode_eq ⟨rfl, encodeXm_of_mask h rfl rfl⟩, fun x s hm => ⟨fun hin => ?_, fun hout => ?_⟩⟩
  · refine ⟨s.setMem (storeFirst s (x.toNat + 1)), withDataRange_of_le hin _, fun z hz => ?_, fun a ha => ?_, rfl⟩
    · exact storeFirst_read_getV hm (by omega) (Nat.lt_succ_of_le hz)
    · exact storeFirst_read_outside s (by omega)
  · exact withDataRange_of_gt hout _

/-- Settles O43: a load writes V alone, each register up to Vx from its own byte. -/
theorem registerLoadReadsV0ToVx : Obligations.RegisterLoadReadsV0ToVx := by
  unfold Obligations.RegisterLoadReadsV0ToVx
  refine ⟨fun w h => IsWordOf.decode_eq ⟨rfl, encodeXm_of_mask h rfl rfl⟩, fun x s => ⟨fun hin => ?_, fun hout => ?_⟩⟩
  · exact ⟨loadFirst s (x.toNat + 1), withDataRange_of_le hin _, loadFirst_succ_getV s x, loadFirst_frame s _⟩
  · exact withDataRange_of_gt hout _

/-- Settles O44: the store leaves I, so the load reads each register's byte from where the store put it. -/
theorem storeThenLoadRoundTrips : Obligations.StoreThenLoadRoundTrips := by
  unfold Obligations.StoreThenLoadRoundTrips
  intro x s t u v' hm hin hstore hload
  obtain rfl : t = s.setMem (storeFirst s (x.toNat + 1)) := eq_of_withDataRange hstore hin
  obtain rfl : u = loadFirst { s.setMem (storeFirst s (x.toNat + 1)) with v := v' } (x.toNat + 1) :=
    eq_of_withDataRange hload hin
  refine ⟨fun z hz => ?_, loadFirst_i _ _, fun z hz => ?_⟩
  · rw [loadFirst_succ_getV, if_pos hz]
    exact storeFirst_read_getV hm (by omega) (Nat.lt_succ_of_le hz)
  · rw [loadFirst_succ_getV, if_neg (Nat.not_le.2 hz)]

/-- Settles O39: LD I writes the zero-extended field, ADD I the sum modulo 65536, each to I alone. -/
theorem indexLoadAndAddWriteIAlone : Obligations.IndexLoadAndAddWriteIAlone := by
  unfold Obligations.IndexLoadAndAddWriteIAlone
  refine ⟨fun w h => ?_, fun w h => ?_, fun nnn x s => ⟨?_, ?_⟩⟩
  · exact IsWordOf.decode_eq ⟨rfl, encodeNnn_of_mask h rfl⟩
  · exact IsWordOf.decode_eq ⟨rfl, encodeXm_of_mask h rfl rfl⟩
  · exact ⟨s.setI (zext16 nnn), rfl, zext16_toNat nnn, rfl⟩
  · exact ⟨s.setI (indexPlus s.i (s.getV x)), rfl, indexPlus_toNat s.i (s.getV x), rfl⟩

/-- Settles O40: the glyph address of any byte needs no reduction to 16 bits. -/
theorem glyphAddressIsBasePlusFiveTimesVx : Obligations.GlyphAddressIsBasePlusFiveTimesVx := by
  unfold Obligations.GlyphAddressIsBasePlusFiveTimesVx
  refine ⟨fun w h => IsWordOf.decode_eq ⟨rfl, encodeXm_of_mask h rfl rfl⟩, fun x s => ?_⟩
  exact ⟨s.setI (glyphAddress (s.getV x)), rfl, glyphAddress_toNat (s.getV x), rfl⟩

end Sys2Proof.Proofs
end

section
/-! SUPPORT. Proofs of the statements about the pixel plane (44_display.md). The layer first: the flag of a collision, one toggle,
the drawing of a sprite in terms of the cells it covers, the state a DRW in range leaves. Then the obligations. -/

namespace Sys2Proof.Machine

open Sys2Proof.Safety

/-! ## The collision as VF (R152) -/

theorem collisionFlag_eq_one_iff (erased : Bool) : collisionFlag erased = 1#8 ↔ erased = true := by
  cases erased <;> decide

theorem collisionFlag_eq_zero_or_one (erased : Bool) : collisionFlag erased = 0#8 ∨ collisionFlag erased = 1#8 := by
  cases erased <;> decide

/-! ## One toggle (R150) -/

theorem togglePixel_cell (p : Plane) (c r : Nat) {c' r' : Nat} (hc : c' < 64) (hr : r' < 32) :
    (togglePixel p c r).1.cell c' r' =
      if c' = c % 64 ∧ r' = r % 32 then !p.cell c' r' else p.cell c' r' := by
  rw [togglePixel, Plane.cell_setCell, Nat.mod_eq_of_lt hc, Nat.mod_eq_of_lt hr]
  split
  case isTrue h =>
    obtain ⟨rfl, rfl⟩ := h
    rw [Plane.cell_mod]
  case isFalse => rfl

theorem togglePixel_mod (p : Plane) (c r : Nat) : togglePixel p (c % 64) (r % 32) = togglePixel p c r := by
  simp only [togglePixel, Plane.setCell, Plane.cell_mod, Nat.mod_mod]

/-! ## A sprite and the cells it covers (R152) -/

section Sprite

variable {s t : State} {x y n : Nibble} {c r : Nat}

theorem drawSprite_cell_of_covers (hc : c < 64) (hr : r < 32) (h : SpriteCovers s x y n c r) :
    (drawSprite x y n s).1.cell c r = !s.plane.cell c r :=
  (drawRows_cell s.mem s.i.toNat _ _ (by omega) (s.plane, false) c r).1 ((rowHits_iff_spriteCovers s x y n hc hr).2 h)

theorem drawSprite_cell_of_not_covers (hc : c < 64) (hr : r < 32) (h : ¬ SpriteCovers s x y n c r) :
    (drawSprite x y n s).1.cell c r = s.plane.cell c r :=
  (drawRows_cell s.mem s.i.toNat _ _ (by omega) (s.plane, false) c r).2
    (mt (rowHits_iff_spriteCovers s x y n hc hr).1 h)

/-- The collision in terms of cells: each set bit is looked up at the cell it wraps to. -/
theorem drawSprite_erased_iff : (drawSprite x y n s).2 = true ↔
    ∃ c r, c < 64 ∧ r < 32 ∧ SpriteCovers s x y n c r ∧ s.plane.cell c r = true := by
  rw [drawSprite, drawRows_erased _ _ _ _ (by omega)]
  constructor
  · rintro (h | ⟨row, hrow, col, hcol, hbit, hset⟩)
    · exact absurd h Bool.false_ne_true
    · exact ⟨_, _, Nat.mod_lt _ (by decide), Nat.mod_lt _ (by decide), ⟨row, col, hrow, hcol, rfl, rfl, hbit⟩,
        (Plane.cell_mod ..).trans hset⟩
  · rintro ⟨_, _, -, -, ⟨row, col, hrow, hcol, rfl, rfl, hbit⟩, hset⟩
    exact .inr ⟨row, hrow, col, hcol, hbit, (Plane.cell_mod ..).symm.trans hset⟩

/-- The cells a sprite covers depend on the origin, on I and on Mem alone. -/
theorem spriteCovers_congr (hx : t.getV x = s.getV x) (hy : t.getV y = s.getV y) (hi : t.i = s.i) (hm : t.mem = s.mem) :
    SpriteCovers t x y n c r ↔ SpriteCovers s x y n c r := by
  simp only [SpriteCovers, hx, hy, hi, hm]

/-- What is covered and set after the drawing is what the drawing turned on. -/
theorem covers_and_set_iff_turned_on (hc : c < 64) (hr : r < 32) :
    SpriteCovers s x y n c r ∧ (drawSprite x y n s).1.cell c r = true ↔
      s.plane.cell c r = false ∧ (drawSprite x y n s).1.cell c r = true := by
  refine and_congr_left fun hset => ?_
  by_cases h : SpriteCovers s x y n c r
  · rw [drawSprite_cell_of_covers hc hr h, Bool.not_eq_true'] at hset
    exact iff_of_true h hset
  · rw [drawSprite_cell_of_not_covers hc hr h] at hset
    exact iff_of_false h (Bool.eq_false_iff.not_left.2 hset)

end Sprite

/-! ## DRW, inside and outside Mem (R152) -/

/-- The state DRW leaves when its sprite lies in Mem. -/
def State.drawn (x y n : Nibble) (s : State) : State :=
  (s.setPlane (drawSprite x y n s).1).setV 0xF#4 (collisionFlag (drawSprite x y n s).2)

section Drawn

variable (x y n : Nibble) (s : State)

@[simp] theorem State.drawn_plane : (s.drawn x y n).plane = (drawSprite x y n s).1 := rfl

@[simp] theorem State.drawn_i : (s.drawn x y n).i = s.i := rfl

@[simp] theorem State.drawn_mem : (s.drawn x y n).mem = s.mem := rfl

@[simp] theorem State.drawn_getV_vf : (s.drawn x y n).getV 0xF#4 = collisionFlag (drawSprite x y n s).2 :=
  State.getV_setV_same _ _ _

theorem State.drawn_getV_other {z : Nibble} (hz : z ≠ 0xF#4) : (s.drawn x y n).getV z = s.getV z :=
  State.getV_setV_other (s.setPlane _) _ hz

theorem State.drawn_vf_eq_one_iff : (s.drawn x y n).getV 0xF#4 = 1#8 ↔
    ∃ c r, c < 64 ∧ r < 32 ∧ SpriteCovers s x y n c r ∧ s.plane.cell c r = true := by
  rw [State.drawn_getV_vf, collisionFlag_eq_one_iff, drawSprite_erased_iff]

end Drawn

section Draw

variable {x y n : Nibble} {s t : State}

theorem exec_drw_of_le (h : n.toNat = 0 ∨ s.i.toNat + n.toNat - 1 ≤ 0xFFF) :
    exec (.drw x y n) s = .next (s.drawn x y n) := by
  rcases execDrw_cases x y n s with ⟨-, e⟩ | ⟨hout, -⟩
  · exact e
  · omega

theorem exec_drw_of_gt (hn : 0 < n.toNat) (h : 0xFFF < s.i.toNat + n.toNat - 1) :
    exec (.drw x y n) s = .next (haltedBy .dataAddressOutOfRange s) := by
  rcases execDrw_cases x y n s with ⟨hin, -⟩ | ⟨-, e⟩
  · omega
  · exact e

/-- A DRW that answers and lies inside Mem has answered the drawing itself. -/
theorem eq_drawn_of_exec_drw (hnext : exec (.drw x y n) s = .next t)
    (h : n.toNat = 0 ∨ s.i.toNat + n.toNat - 1 ≤ 0xFFF) : t = s.drawn x y n :=
  Host.Outcome.next.inj (hnext.symm.trans (exec_drw_of_le h))

/-! ## Drawing twice (R153) -/

/-- With its origin outside VF, a second draw covers the cells of the first. -/
theorem spriteCovers_drawn_iff (hx : x ≠ 0xF#4) (hy : y ≠ 0xF#4) {c r : Nat} :
    SpriteCovers (s.drawn x y n) x y n c r ↔ SpriteCovers s x y n c r :=
  spriteCovers_congr (s.drawn_getV_other x y n hx) (s.drawn_getV_other x y n hy) (s.drawn_i x y n)
    (s.drawn_mem x y n)

/-- A covered cell is flipped twice, any other never. -/
theorem State.drawn_drawn_plane (hx : x ≠ 0xF#4) (hy : y ≠ 0xF#4) :
    ((s.drawn x y n).drawn x y n).plane = s.plane := by
  refine Plane.ext_cell fun c r hc hr => ?_
  rw [State.drawn_plane]
  by_cases h : SpriteCovers s x y n c r
  · rw [drawSprite_cell_of_covers hc hr ((spriteCovers_drawn_iff hx hy).2 h), State.drawn_plane,
      drawSprite_cell_of_covers hc hr h, Bool.not_not]
  · rw [drawSprite_cell_of_not_covers hc hr (mt (spriteCovers_drawn_iff hx hy).1 h), State.drawn_plane,
      drawSprite_cell_of_not_covers hc hr h]

theorem State.drawn_drawn_vf_eq_one_iff (hx : x ≠ 0xF#4) (hy : y ≠ 0xF#4) :
    ((s.drawn x y n).drawn x y n).getV 0xF#4 = 1#8 ↔
      ∃ c r, c < 64 ∧ r < 32 ∧ s.plane.cell c r = false ∧ (s.drawn x y n).plane.cell c r = true := by
  rw [State.drawn_vf_eq_one_iff]
  refine exists_congr fun c => exists_congr fun r => and_congr_right fun hc => and_congr_right fun hr => ?_
  rw [spriteCovers_drawn_iff hx hy]
  exact covers_and_set_iff_turned_on hc hr

end Draw

end Sys2Proof.Machine

namespace Sys2Proof.Proofs

open Sys2Proof.Machine Sys2Proof.Safety

/-- Settles O47: the address test decides between the drawing, cell by cell, and the fault. -/
theorem drawFlipsTheCoveredCellsAndReportsCollision : Obligations.DrawFlipsTheCoveredCellsAndReportsCollision := by
  unfold Obligations.DrawFlipsTheCoveredCellsAndReportsCollision
  refine ⟨fun w h => IsWordOf.decode_eq ⟨rfl, encodeXyn_of_mask h rfl⟩, fun x y n s => ⟨fun hin => ?_, exec_drw_of_gt⟩⟩
  refine ⟨s.drawn x y n, exec_drw_of_le hin, fun c r hc hr => ⟨?_, ?_⟩, ?_, ?_, ?_, rfl⟩
  · exact drawSprite_cell_of_covers hc hr
  · exact drawSprite_cell_of_not_covers hc hr
  · rw [State.drawn_getV_vf]
    exact collisionFlag_eq_zero_or_one _
  · exact s.drawn_vf_eq_one_iff x y n
  · exact fun z hz => s.drawn_getV_other x y n hz

/-- Settles O48: the first draw leaves the origin, I and Mem, so the second flips the same cells back. -/
theorem drawingTwiceRestoresThePlane : Obligations.DrawingTwiceRestoresThePlane := by
  unfold Obligations.DrawingTwiceRestoresThePlane
  intro x y n s t u hx hy hin hfirst hsecond
  obtain rfl : t = s.drawn x y n := eq_drawn_of_exec_drw hfirst hin
  obtain rfl : u = (s.drawn x y n).drawn x y n := eq_drawn_of_exec_drw hsecond hin
  exact ⟨State.drawn_drawn_plane hx hy, State.drawn_drawn_vf_eq_one_iff hx hy⟩

/-- Settles O45: reading and writing a cell both wrap. -/
theorem togglePixelFlipsTheWrappedCell : Obligations.TogglePixelFlipsTheWrappedCell := by
  unfold Obligations.TogglePixelFlipsTheWrappedCell
  intro p c r
  exact ⟨(Plane.cell_mod p c r).symm, fun _ _ => togglePixel_cell p c r, (togglePixel_mod p c r).symm⟩

/-- Settles O46: the plane is replaced by the clear one. -/
theorem clearZeroesEveryCell : Obligations.ClearZeroesEveryCell := by
  unfold Obligations.ClearZeroesEveryCell
  refine ⟨fun w h => IsWordOf.decode_eq ⟨rfl, pattern_of_full_mask h⟩, fun s => ?_⟩
  exact ⟨s.setPlane Plane.clear, rfl, fun c r _ _ => Plane.cell_clear c r, rfl⟩

end Sys2Proof.Proofs
end

section
/-! SUPPORT. Proofs of the statements about keys and timers (45_keys_timers.md). The layer first: a skip on a key that Vx names
and on none, the key that `Fx0A` takes, the timers as numbers after a run of Ticks. Then the obligations. -/

namespace Sys2Proof.Machine

open Sys2Proof.Safety

/-! ## Skips on a key (R160, R161, R192) -/

theorem keyNumber_eq_of_toNat_eq {vx : Byte} {k : Nibble} (h : vx.toNat = k.toNat) : keyNumber vx = k := by
  apply BitVec.eq_of_toNat_eq
  rw [keyNumber, BitVec.extractLsb'_toNat, Nat.shiftRight_zero, h]
  exact Nat.mod_eq_of_lt k.isLt

theorem skipOnKey_of_toNat_eq {s : State} {x k : Nibble} (h : (s.getV x).toNat = k.toNat) (wanted : Bool) :
    skipOnKey x wanted s = .next (s.setPc (if s.keyDown k = wanted then s.pc + 2#16 else s.pc)) := by
  rcases skipOnKey_eq x wanted s with ⟨-, e⟩ | ⟨hgt, -⟩
  · rw [e, keyNumber_eq_of_toNat_eq h]
  · omega

theorem skipOnKey_of_gt {s : State} {x : Nibble} (h : 0xF < (s.getV x).toNat) (wanted : Bool) :
    skipOnKey x wanted s = .next (haltedBy .keyIndexOutOfRange s) := by
  rcases skipOnKey_eq x wanted s with ⟨hle, -⟩ | ⟨-, e⟩
  · omega
  · exact e

/-! ## The wait for a key (R162) -/

theorem State.keyDown_ofNat (s : State) {j : Nat} (hj : j < 16) : s.keyDown (BitVec.ofNat 4 j) = s.keys[j] := by
  simp only [State.keyDown, BitVec.toNat_ofNat, Nat.mod_eq_of_lt hj]

/-- The key the scan finds can lie neither above a pressed key nor below the least one. -/
theorem firstPressed_eq_some {s : State} {k : Nibble} (hdown : s.keyDown k = true)
    (hleast : ∀ j : Nibble, j.toNat < k.toNat → s.keyDown j = false) : firstPressed s = some k.toNat := by
  cases h : firstPressed s with
  | none => exact absurd (hdown.symm.trans (firstPressed_none h k.toNat k.isLt)) nofun
  | some j =>
    obtain ⟨hj, hjdown, hjleast⟩ := firstPressed_some h
    rcases Nat.lt_trichotomy j k.toNat with hlt | heq | hgt
    · have hup := hleast (BitVec.ofNat 4 j) (by rwa [BitVec.toNat_ofNat, Nat.mod_eq_of_lt hj])
      rw [State.keyDown_ofNat s hj] at hup
      exact absurd (hjdown.symm.trans hup) nofun
    · rw [heq]
    · exact absurd (hdown.symm.trans (hjleast k.toNat k.isLt hgt)) nofun

theorem firstPressed_eq_none {s : State} (h : ∀ k, s.keyDown k = false) : firstPressed s = none := by
  cases hfirst : firstPressed s with
  | none => rfl
  | some j =>
    obtain ⟨hj, hdown, -⟩ := firstPressed_some hfirst
    exact absurd (hdown.symm.trans ((State.keyDown_ofNat s hj).symm.trans (h _))) nofun

theorem execWaitKey_of_least {s : State} {k : Nibble} (hdown : s.keyDown k = true)
    (hleast : ∀ j : Nibble, j.toNat < k.toNat → s.keyDown j = false) (x : Nibble) :
    execWaitKey x s = .next (s.setV x (BitVec.ofNat 8 k.toNat)) := by
  rw [execWaitKey, firstPressed_eq_some hdown hleast]

theorem execWaitKey_of_none {s : State} (h : ∀ k, s.keyDown k = false) (x : Nibble) :
    execWaitKey x s = .next (s.setPc (s.pc - 2#16)) := by
  rw [execWaitKey, firstPressed_eq_none h]

/-- The PC that the wait takes back is the one the cycle has advanced (R73). -/
theorem step_of_waitKey_of_none {s : State} {x : Nibble} (hup : ∀ k, s.keyDown k = false)
    (hnext : s.schedule.next = .step) (hrun : s.halted = false) (hpc : s.pc.toNat ≤ 0xFFE)
    (hword : decode (wordAtPc s) = .waitKey x) :
    step s = .next { s with schedule := s.schedule.rest, phase := .underway } := by
  have hwait := execWaitKey_of_none
    (s := { s with pc := s.pc + 2#16, schedule := s.schedule.rest, phase := .underway }) hup x
  rw [State.setPc, BitVec.add_sub_cancel] at hwait
  rw [step_eq_exec_wordAtPc hnext hrun hpc, hword]
  exact hwait

/-! ## The timers as numbers (R197) -/

theorem toNat_decrement_floored (b : Byte) : (if b = 0#8 then 0#8 else b - 1#8).toNat = b.toNat - 1 := by
  split
  · next h => rw [h]; rfl
  · next h => bv_omega

@[simp] theorem tick_halted (s : State) : (tick s).halted = s.halted := by
  unfold tick
  split <;> rfl

theorem tick_dt_toNat {s : State} (hrun : s.halted = false) : (tick s).dt.toNat = s.dt.toNat - 1 := by
  rw [tick, hrun]
  exact toNat_decrement_floored s.dt

theorem tick_st_toNat {s : State} (hrun : s.halted = false) : (tick s).st.toNat = s.st.toNat - 1 := by
  rw [tick, hrun]
  exact toNat_decrement_floored s.st

/-- A running machine goes on running through its Ticks, so each of them counts. -/
theorem iterate_tick_toNat {s : State} (hrun : s.halted = false) (k : Nat) :
    (tick^[k] s).dt.toNat = s.dt.toNat - k ∧ (tick^[k] s).st.toNat = s.st.toNat - k := by
  induction k generalizing s with
  | zero => exact ⟨rfl, rfl⟩
  | succ k ih =>
    obtain ⟨hdt, hst⟩ := ih ((tick_halted s).trans hrun)
    rw [tick_dt_toNat hrun] at hdt
    rw [tick_st_toNat hrun] at hst
    rw [Function.iterate_succ_apply, hdt, hst]
    omega

theorem tone_eq_true_iff (s : State) : tone s = true ↔ 0 < s.st.toNat := decide_eq_true_iff

end Sys2Proof.Machine

namespace Sys2Proof.Proofs

open Sys2Proof.Machine Sys2Proof.Safety

/-- Settles O32: both test the key that Vx names, SKP for pressed and SKNP for its complement; above 0xF the range test comes
before either. -/
theorem keySkipsTestTheKeyNamedByVx : Obligations.KeySkipsTestTheKeyNamedByVx := by
  unfold Obligations.KeySkipsTestTheKeyNamedByVx
  refine ⟨fun w h => ?_, fun w h => ?_, fun x s => ⟨fun k hk => ⟨?_, ?_⟩, fun hgt => ⟨?_, ?_⟩⟩⟩
  iterate 2 exact IsWordOf.decode_eq ⟨rfl, encodeXm_of_mask h rfl rfl⟩
  · exact skipOnKey_of_toNat_eq hk true
  · have hskip := skipOnKey_of_toNat_eq hk false
    simp only [← Bool.not_eq_true, ite_not] at hskip
    exact hskip
  · exact skipOnKey_of_gt hgt true
  · exact skipOnKey_of_gt hgt false

/-- Settles O49: a pressed key with none below it is the one the scan finds; with none pressed the PC goes back by the 2 that the
Step has advanced it. -/
theorem keyWaitTakesTheLeastPressedKeyOrWaits : Obligations.KeyWaitTakesTheLeastPressedKeyOrWaits := by
  unfold Obligations.KeyWaitTakesTheLeastPressedKeyOrWaits
  refine ⟨fun w h => ?_, fun x k s hdown hleast => ?_, fun x s hup => ⟨?_, ?_⟩⟩
  · exact IsWordOf.decode_eq ⟨rfl, encodeXm_of_mask h rfl rfl⟩
  · refine ⟨_, execWaitKey_of_least hdown hleast x, ?_, State.setV_writes_vx_alone s x _⟩
    rw [State.getV_setV_same, BitVec.toNat_ofNat, Nat.mod_eq_of_lt (by omega)]
  · exact execWaitKey_of_none hup x
  · exact step_of_waitKey_of_none hup

/-- Settles O51: each writes its timer alone, and k Ticks of a running machine take k from it, floored at 0. -/
theorem timerWritesReplaceTheCount : Obligations.TimerWritesReplaceTheCount := by
  unfold Obligations.TimerWritesReplaceTheCount
  refine ⟨fun w h => ?_, fun w h => ?_, fun x s => ⟨?_, ?_⟩⟩
  iterate 2 exact IsWordOf.decode_eq ⟨rfl, encodeXm_of_mask h rfl rfl⟩
  · exact ⟨s.setDt (s.getV x), rfl, rfl, rfl,
      fun hrun k => (iterate_tick_toNat (s := s.setDt (s.getV x)) hrun k).1⟩
  · exact ⟨s.setSt (s.getV x), rfl, rfl, rfl, tone_eq_true_iff (s.setSt (s.getV x)),
      fun hrun k => (iterate_tick_toNat (s := s.setSt (s.getV x)) hrun k).2⟩

/-- Settles O50: Vx alone is written, with DT. -/
theorem delayTimerReadCopiesDt : Obligations.DelayTimerReadCopiesDt := by
  unfold Obligations.DelayTimerReadCopiesDt
  refine ⟨fun w h => IsWordOf.decode_eq ⟨rfl, encodeXm_of_mask h rfl rfl⟩, fun x s => ?_⟩
  exact ⟨s.setV x s.dt, rfl, State.getV_setV_same s x s.dt, State.setV_writes_vx_alone s x s.dt⟩

end Sys2Proof.Proofs
end

section
/-! SUPPORT. Proof of the statement about every other word (46_unmatched_noop.md). The layer first: what the no-op does, alone and
as a whole Step. -/

namespace Sys2Proof.Machine

open Sys2Proof.Safety

theorem exec_noop (w : Word) (s : State) : exec (.noop w) s = .next s := rfl

/-- A Step of a running engine on a word that decodes to the no-op only advances the PC (R73, R170). -/
theorem step_of_noop {s : State} {w : Word} (hnext : s.schedule.next = .step) (hrun : s.halted = false)
    (hpc : s.pc.toNat ≤ 0xFFE) (hword : decode (wordAtPc s) = .noop w) :
    step s = .next { s with pc := s.pc + 2#16, schedule := s.schedule.rest, phase := .underway } := by
  rw [step_eq_exec_wordAtPc hnext hrun hpc, hword, exec_noop]

end Sys2Proof.Machine

namespace Sys2Proof.Proofs

open Sys2Proof.Machine Sys2Proof.Safety

/-- Settles O56: a word that meets no row decodes to the no-op, whose execute phase keeps the state that the cycle has advanced. -/
theorem unmatchedWordsOnlyAdvanceThePc : Obligations.UnmatchedWordsOnlyAdvanceThePc := by
  unfold Obligations.UnmatchedWordsOnlyAdvanceThePc
  refine ⟨fun w hnone => decode_of_meets_no_row hnone, exec_noop, fun s hnext hrun hpc hnone => ?_⟩
  exact step_of_noop hnext hrun hpc (decode_of_meets_no_row hnone)

end Sys2Proof.Proofs
end

section
/-! SUPPORT. Proofs of the statements about events and faults (60_exceptions.md). The layer first: the schedule event by event,
what an instruction passes by, the Tick and the key events, the faults of a whole Step, the halted state, the tone. Then the
obligations. -/

namespace Sys2Proof.Machine

open Sys2Proof.Safety

/-! ## The order of events (R196) -/

theorem step_schedule {s t : State} (h : step s = .next t) : t.schedule = s.schedule.rest :=
  applyEvent_schedule ((step_eq s).symm.trans h)

theorem firstEvents_listed_append (l : List Event) (src : Source) (k : Nat) :
    firstEvents (l.length + k) { listed := l, after := src } = l ++ firstEvents k { listed := [], after := src } := by
  induction l with
  | nil => rw [List.length_nil, Nat.zero_add, List.nil_append]
  | cons e l ih =>
    rw [List.length_cons, Nat.add_right_comm, List.cons_append, ← ih]
    rfl

theorem firstEvents_free (n k : Nat) :
    firstEvents k { listed := [], after := .free n } = (List.range k).map fun j => Config.freeEvent (n + j) := by
  induction k generalizing n with
  | zero => rfl
  | succ k ih =>
    have hrest := ih (n + 1)
    simp only [Nat.add_right_comm n 1] at hrest
    rw [List.range_succ_eq_map, List.map_cons, List.map_map]
    exact congrArg (Config.freeEvent n :: ·) hrest

/-! ## The engine's Step, case by case (R73, R184, R187) -/

theorem engineStep_of_halted {s : State} (hhalt : s.halted = true) : engineStep s = .next s := if_pos hhalt

theorem engineStep_of_fetch_fault {s : State} (hrun : s.halted = false) (hpc : 0xFFE < s.pc.toNat) :
    engineStep s = .next (enterFault .fetchOutOfRange s.pc s) := by
  rcases engineStep_cases s with ⟨hhalt, -⟩ | ⟨-, -, e⟩ | ⟨-, hle, -⟩
  · exact absurd (hrun.symm.trans hhalt) nofun
  · exact e
  · exact absurd hle (Nat.not_le.2 hpc)

theorem engineStep_of_word {s : State} (hrun : s.halted = false) (hpc : s.pc.toNat ≤ 0xFFE) :
    engineStep s = exec (decode (wordAtPc s)) s.advancePc := by
  rcases engineStep_cases s with ⟨hhalt, -⟩ | ⟨-, hgt, -⟩ | ⟨-, -, e⟩
  · exact absurd (hrun.symm.trans hhalt) nofun
  · exact absurd hgt (Nat.not_lt.2 hpc)
  · exact e

/-! ## DT and the schedule, which most instructions pass by (R27, R58, R196) -/

/-- `s` with DT and the schedule each put through a function. -/
def State.mapDtSchedule (fd : Byte → Byte) (fq : Schedule → Schedule) (s : State) : State :=
  { s with dt := fd s.dt, schedule := fq s.schedule }

section MapDtSchedule

variable {fd : Byte → Byte} {fq : Schedule → Schedule}

theorem storeFirst_mapDtSchedule (s : State) (count : Nat) :
    storeFirst (s.mapDtSchedule fd fq) count = storeFirst s count := by
  induction count with
  | zero => rfl
  | succ n ih => rw [storeFirst, storeFirst, ih]; rfl

theorem loadFirst_mapDtSchedule_v (s : State) (count : Nat) :
    (loadFirst (s.mapDtSchedule fd fq) count).v = (loadFirst s count).v := by
  induction count with
  | zero => rfl
  | succ n ih => rw [loadFirst, loadFirst, State.setV_v, State.setV_v, ih]; rfl

/-- An instruction does the same whatever events are still to come, and whatever DT holds unless it reads or writes DT. -/
theorem exec_mapDtSchedule {instr : Instr} {s t : State}
    (hd : fd = id ∨ (∀ x, instr ≠ .readDt x) ∧ ∀ x, instr ≠ .setDt x)
    (h : exec instr s = .next t) : exec instr (s.mapDtSchedule fd fq) = .next (t.mapDtSchedule fd fq) := by
  cases instr
  case call nnn =>
    rcases Nat.lt_or_ge s.sp.val 16 with hsp | hsp
    · cases (execCall_of_lt hsp nnn).symm.trans h
      exact execCall_of_lt (s := s.mapDtSchedule fd fq) hsp nnn
    · have hfull : s.sp.val = 16 := by omega
      cases (execCall_of_full hfull nnn).symm.trans h
      exact execCall_of_full (s := s.mapDtSchedule fd fq) hfull nnn
  case ret =>
    rcases Nat.eq_zero_or_pos s.sp.val with hsp | hsp
    · cases (execRet_of_empty hsp).symm.trans h
      exact execRet_of_empty (s := s.mapDtSchedule fd fq) hsp
    · cases (execRet_of_pos hsp).symm.trans h
      exact execRet_of_pos (s := s.mapDtSchedule fd fq) hsp
  case skp x => exact map_answer (by omega) (skipOnKey_eq x true s) (skipOnKey_eq x true (s.mapDtSchedule fd fq)) h
  case sknp x => exact map_answer (by omega) (skipOnKey_eq x false s) (skipOnKey_eq x false (s.mapDtSchedule fd fq)) h
  case waitKey x =>
    have hkey : firstPressed (s.mapDtSchedule fd fq) = firstPressed s := rfl
    rcases execWaitKey_cases x s with ⟨k, hp, e⟩ | ⟨hp, e⟩ <;> cases e.symm.trans h
    all_goals simp only [exec, execWaitKey, hkey, hp]; rfl
  case readDt x =>
    obtain rfl := hd.resolve_right fun hne => hne.1 x rfl
    cases h; rfl
  case setDt x =>
    obtain rfl := hd.resolve_right fun hne => hne.2 x rfl
    cases h; rfl
  case bcd x => exact map_answer (by omega) (execBcd_cases x s) (execBcd_cases x (s.mapDtSchedule fd fq)) h
  case storeRegs x =>
    have h' := execStoreRegs_cases x (s.mapDtSchedule fd fq)
    rw [storeFirst_mapDtSchedule] at h'
    exact map_answer (by omega) (execStoreRegs_cases x s) h' h
  case loadRegs x =>
    have h' := execLoadRegs_cases x (s.mapDtSchedule fd fq)
    rw [loadFirst_mapDtSchedule_v] at h'
    exact map_answer (by omega) (execLoadRegs_cases x s) h' h
  case drw x y n => exact map_answer (by omega) (execDrw_cases x y n s) (execDrw_cases x y n (s.mapDtSchedule fd fq)) h
  case seImm | sneImm | seReg | sneReg =>
    rw [skipIf_next_iff.1 h]
    exact skipIf_next_iff.2 rfl
  all_goals cases h; rfl

/-- No Step reads or writes what is still to come. -/
theorem engineStep_mapSchedule {s t : State} (h : engineStep s = .next t) :
    engineStep (s.mapDtSchedule id fq) = .next (t.mapDtSchedule id fq) := by
  rcases engineStep_cases s with ⟨hhalt, e⟩ | ⟨hrun, hpc, e⟩ | ⟨hrun, hpc, e⟩
  · cases e.symm.trans h
    exact engineStep_of_halted (s := s.mapDtSchedule id fq) hhalt
  · cases e.symm.trans h
    exact engineStep_of_fetch_fault (s := s.mapDtSchedule id fq) hrun hpc
  · exact (engineStep_of_word (s := s.mapDtSchedule id fq) hrun hpc).trans
      (exec_mapDtSchedule (.inl rfl) (e.symm.trans h))

end MapDtSchedule

/-! ## The Tick and the key events (R197, R199) -/

/-- One count less, floored at 0. -/
def countDown (b : Byte) : Byte := if b = 0#8 then 0#8 else b - 1#8

theorem tick_of_halted {s : State} (hhalt : s.halted = true) : tick s = s := if_pos hhalt

theorem tick_of_running {s : State} (hrun : s.halted = false) :
    tick s = (s.mapAside id id countDown).mapDtSchedule countDown id :=
  if_neg (Bool.eq_false_iff.1 hrun)

theorem tick_frame (s : State) : tick s = { s with dt := (tick s).dt, st := (tick s).st } := by
  unfold tick
  split <;> rfl

/-- Nothing but a Reset takes a machine out of the halted state (R187, R189), so no instruction does. -/
theorem running_of_exec {instr : Instr} {s t : State} (h : exec instr s = .next t) (hrun : t.halted = false) :
    s.halted = false := by
  rcases exec_cases instr s with ⟨hf, -⟩ | ⟨c, -, e⟩
  · exact ((exec_keepsColumns h).fault hf).1.symm.trans hrun
  · cases e.symm.trans h
    exact absurd hrun nofun

/-- A key event of the schedule writes its key of the latch and nothing else (R199). -/
theorem step_writes_key_alone {s : State} {k : Nibble} {b : Bool} (h : step s = .next (s.takeEvent.setKey k b)) :
    ∃ t, step s = .next t ∧ (∀ j, t.keyDown j = if j = k then b else s.keyDown j) ∧
      t = { s with keys := t.keys, schedule := s.schedule.rest } :=
  ⟨_, h, fun j => State.keyDown_setKey s.takeEvent k j b, rfl⟩

/-! ## The faults of a whole Step (R181, R185, R188) -/

/-- The state a faulting Step leaves: as before it, but for the three fault registers and the model's own fields. -/
def State.faulted (cause : Cause) (s : State) : State :=
  { s with halted := true, faultCause := cause, faultPc := s.pc, schedule := s.schedule.rest, phase := .underway }

section StepFault

variable {s : State} (hnext : s.schedule.next = .step) (hrun : s.halted = false)
include hnext hrun

theorem step_of_fetch_fault (hpc : 0xFFE < s.pc.toNat) : step s = .next (s.faulted .fetchOutOfRange) :=
  (step_of_step hnext).trans (engineStep_of_fetch_fault (s := s.takeEvent.closeLoad) hrun hpc)

theorem step_of_stepFault {c : Cause} (hf : stepFault s = some c) : step s = .next (s.faulted c) := by
  unfold stepFault at hf
  split at hf
  · next hpc => cases hf; exact step_of_fetch_fault hnext hrun hpc
  · next hpc =>
    rw [step_eq_exec_wordAtPc hnext hrun (Nat.not_lt.1 hpc)]
    rcases exec_cases (decode (wordAtPc s))
      { s with pc := s.pc + 2#16, schedule := s.schedule.rest, phase := .underway } with ⟨hnone, -⟩ | ⟨c', hc', e⟩
    · exact absurd (hnone.symm.trans hf) nofun
    · cases hc'.symm.trans hf
      rw [e, haltedBy, BitVec.add_sub_cancel]
      rfl

theorem step_of_stepFault_none (hf : stepFault s = none) :
    ∃ t, step s = .next t ∧ t.halted = false ∧ t.faultCause = s.faultCause ∧ t.faultPc = s.faultPc := by
  unfold stepFault at hf
  split at hf
  · cases hf
  · next hpc =>
    rw [step_eq_exec_wordAtPc hnext hrun (Nat.not_lt.1 hpc)]
    rcases exec_cases (decode (wordAtPc s))
      { s with pc := s.pc + 2#16, schedule := s.schedule.rest, phase := .underway }
      with ⟨-, t, e, hhalted, hcause, hpc, -⟩ | ⟨c, hc, -⟩
    · exact ⟨t, e, hhalted.trans hrun, hcause, hpc⟩
    · exact absurd (hc.symm.trans hf) nofun

/-- The host reads a fault from the status output (R202): halted, the cause's code, the PC of the Step that faulted. -/
theorem status_of_stepFault {c : Cause} (hf : stepFault s = some c) :
    ∃ t, step s = .next t ∧ status t = (true, causeCode c, s.pc) :=
  ⟨_, step_of_stepFault hnext hrun hf, rfl⟩

end StepFault

theorem stepFault_ne_none (s : State) : stepFault s ≠ some .none := by
  unfold stepFault
  split
  · nofun
  · exact instrFault_ne_none _ s

/-! ## The halted state (R187) -/

theorem State.closeLoad_of_underway {s : State} (h : s.phase = .underway) : s.closeLoad = s := by
  rw [State.closeLoad, ← h]

/-- In a halted session, which is past its Load, only a key event or a Reset changes anything. -/
theorem applyEvent_of_halted {e : Event} {s t : State} (hhalt : s.halted = true) (hph : s.phase = .underway)
    (hne : e ≠ .reset) (h : applyEvent e s = .next t) :
    t = s ∨ ∃ k b, (e = .keySet k ∨ e = .keyClear k) ∧ t = s.setKey k b := by
  cases e with
  | step =>
    rw [applyEvent, State.closeLoad_of_underway hph, engineStep_of_halted hhalt] at h
    exact .inl (Host.Outcome.next.inj h).symm
  | tick =>
    rw [applyEvent, tick_of_halted hhalt] at h
    exact .inl (Host.Outcome.next.inj h).symm
  | keySet k => cases h; exact .inr ⟨k, true, .inl rfl, rfl⟩
  | keyClear k => cases h; exact .inr ⟨k, false, .inr rfl, rfl⟩
  | reset => exact absurd rfl hne
  | load glyphs image =>
    rw [applyEvent, load, hph] at h
    cases h

/-! ## The tone (R201) -/

theorem tone_congr {s t : State} (h : t.st = s.st) : tone t = tone s := by rw [tone, tone, h]

theorem exec_tone_ne {instr : Instr} {s t : State} (h : exec instr s = .next t) (hne : tone t ≠ tone s) :
    ∃ x, instr = .setSt x := by
  by_contra hno
  exact hne (tone_congr ((exec_keepsColumns h).st fun x hx => hno ⟨x, hx⟩))

/-- Counting down changes whether the count is above 0 only from 1. -/
theorem tick_tone_ne_iff (s : State) : tone (tick s) ≠ tone s ↔ s.st.toNat = 1 ∧ (tick s).st.toNat = 0 := by
  rw [ne_eq, Bool.eq_iff_iff, tone_eq_true_iff, tone_eq_true_iff]
  cases hrun : s.halted with
  | true => rw [tick_of_halted hrun]; omega
  | false => rw [tick_st_toNat hrun]; omega

/-- Only LD ST, Vx, executed by a running engine, makes a Step change the tone. -/
theorem engineStep_tone_ne {s t : State} (h : engineStep s = .next t) (hne : tone t ≠ tone s) :
    s.halted = false ∧ ∃ x, decode (wordAtPc s) = .setSt x := by
  rcases engineStep_cases s with ⟨-, e⟩ | ⟨-, -, e⟩ | ⟨hrun, -, e⟩
  · cases e.symm.trans h
    exact absurd rfl hne
  · cases e.symm.trans h
    exact absurd rfl hne
  · exact ⟨hrun, exec_tone_ne (e.symm.trans h) hne⟩

/-- Of all events, the three that can change the tone. -/
theorem applyEvent_tone_ne {e : Event} {s t : State} (h : applyEvent e s = .next t) (hne : tone t ≠ tone s) :
    (e = .step ∧ s.halted = false ∧ ∃ x, decode (wordAtPc s) = .setSt x) ∨
      (e = .tick ∧ s.st.toNat = 1 ∧ t.st.toNat = 0) ∨ e = .reset := by
  cases e with
  | step => exact .inl ⟨rfl, engineStep_tone_ne (s := s.closeLoad) h hne⟩
  | tick => cases h; exact .inr (.inl ⟨rfl, (tick_tone_ne_iff s).1 hne⟩)
  | keySet k => cases h; exact absurd rfl hne
  | keyClear k => cases h; exact absurd rfl hne
  | reset => exact .inr (.inr rfl)
  | load glyphs image =>
    rcases load_cases glyphs image s with ⟨-, -, e⟩ | ⟨-, -, e⟩ | ⟨-, e⟩ <;> cases e.symm.trans h
    exact absurd rfl hne

end Sys2Proof.Machine

namespace Sys2Proof.Proofs

open Sys2Proof.Machine Sys2Proof.Safety

/-- Settles O6: a step takes the head of the schedule and no event writes the rest; the listed events come first, then the
source's. -/
theorem eventsComeInTheOrderOfTheSchedule : Obligations.EventsComeInTheOrderOfTheSchedule := by
  unfold Obligations.EventsComeInTheOrderOfTheSchedule
  refine ⟨fun s t h k => ?_, fun l src => ?_, fun l n k => ?_⟩
  · rw [step_schedule h]; rfl
  · exact (firstEvents_listed_append l src 0).trans (List.append_nil l)
  · rw [firstEvents_listed_append, firstEvents_free]

/-- Settles O8: the Step of one schedule, put through the other's rest. -/
theorem scheduledStepIsTheSameStep : Obligations.ScheduledStepIsTheSameStep := by
  unfold Obligations.ScheduledStepIsTheSameStep
  intro s t p q hp hq h
  rw [step_of_step hp] at h
  rw [step_of_step hq]
  exact engineStep_mapSchedule (fq := fun _ => q.rest) h

/-- Settles O11: the fetch test first, then the table for the decoded instruction. -/
theorem stepFaultsExactlyAsTheTableSays : Obligations.StepFaultsExactlyAsTheTableSays := by
  unfold Obligations.StepFaultsExactlyAsTheTableSays
  intro s hnext hrun
  have hstatus {c : Cause} := status_of_stepFault (c := c) hnext hrun
  exact ⟨fun _ => step_of_stepFault hnext hrun, step_of_stepFault_none hnext hrun, hstatus, hstatus, hstatus, hstatus,
    hstatus, stepFault_ne_none s⟩

/-- Settles O12: of the events that a halted session does not refuse, only a key event writes, and K alone. -/
theorem haltedStateIsFrozen : Obligations.HaltedStateIsFrozen := by
  unfold Obligations.HaltedStateIsFrozen
  intro s t ⟨_, _, hph⟩ hhalt hreset h
  rw [step_eq] at h
  rcases applyEvent_of_halted (s := s.takeEvent) hhalt (hph hhalt) hreset h with rfl | ⟨k, b, hkey, rfl⟩
  · exact ⟨rfl, fun _ => rfl⟩
  · refine ⟨rfl, fun hno => ?_⟩
    rcases hkey with he | he
    · exact absurd he (hno k).1
    · exact absurd he (hno k).2

/-- Settles O52: the event is the Tick of the state that has taken it. -/
theorem tickDecrementsBothTimersFlooredAtZero : Obligations.TickDecrementsBothTimersFlooredAtZero := by
  unfold Obligations.TickDecrementsBothTimersFlooredAtZero
  intro s hnext
  refine ⟨tick s.takeEvent, step_of_event hnext, tick_frame s.takeEvent, fun hhalt => ?_, fun hrun => ?_⟩
  · rw [tick_of_halted (s := s.takeEvent) hhalt]
    exact ⟨rfl, rfl⟩
  · exact ⟨tick_dt_toNat (s := s.takeEvent) hrun, tick_st_toNat (s := s.takeEvent) hrun⟩

/-- Settles O53: a Tick of a running machine puts DT and ST through the count-down, and the instruction passes both by. -/
theorem tickCommutesWithOtherInstructions : Obligations.TickCommutesWithOtherInstructions := by
  unfold Obligations.TickCommutesWithOtherInstructions
  intro instr s t hread hdt hst h hrun
  rw [tick_of_running (running_of_exec h hrun), tick_of_running hrun]
  exact exec_mapDtSchedule (.inr ⟨hread, hdt⟩) (exec_mapAside (.inl rfl) (.inl rfl) (.inr hst) h)

/-- Settles O55: ST is written by LD ST, Vx, by a Tick and by Reset only, and a count-down crosses 0 only from 1. -/
theorem toneFollowsTheSoundTimer : Obligations.ToneFollowsTheSoundTimer := by
  unfold Obligations.ToneFollowsTheSoundTimer
  refine ⟨tone_eq_true_iff, fun x s => ⟨s.setSt (s.getV x), rfl, tone_eq_true_iff _⟩, fun _ _ _ => exec_tone_ne,
    tick_tone_ne_iff, fun s t h hne => ?_⟩
  exact applyEvent_tone_ne (s := s.takeEvent) ((step_eq s).symm.trans h) hne

/-- Settles O54: no row of the instructions' table lists K, a Tick writes the timers, and a key event writes its key. -/
theorem keyEventsWriteOneLatchBit : Obligations.KeyEventsWriteOneLatchBit := by
  unfold Obligations.KeyEventsWriteOneLatchBit
  refine ⟨fun _ _ _ h => (exec_keepsColumns h).keys, fun s => by rw [tick_frame], fun s k => ⟨fun h => ?_, fun h => ?_⟩⟩
  · exact step_writes_key_alone (step_of_event h)
  · exact step_writes_key_alone (step_of_event h)

end Sys2Proof.Proofs
end

section
/-! SUPPORT. Proofs of the statements about Reset, Load and the host's contract (70_reset_and_hazards.md). The layer first: the
phase an event leads to, what a Load answers and places, the contract event by event. Then the obligations. -/

namespace Sys2Proof.Machine

open Sys2Proof.Safety

/-! ## The phase of the session (R213, R215) -/

/-- The phase an event that is not refused leads to: a Load or a Step closes the session to Load, a Reset begins a new one. -/
def Phase.after (ph : Phase) : Event → Phase
  | .step | .load _ _ => .underway
  | .tick | .keySet _ | .keyClear _ => ph
  | .reset => .created

theorem Phase.after_underway {e : Event} (h : e ≠ .reset) : Phase.underway.after e = .underway := by
  cases e with
  | reset => exact absurd rfl h
  | step | tick | keySet | keyClear | load => rfl

theorem tick_phase (s : State) : (tick s).phase = s.phase := by rw [tick_frame]

theorem tick_mem (s : State) : (tick s).mem = s.mem := by rw [tick_frame]

theorem applyEvent_phase {e : Event} {s t : State} (h : applyEvent e s = .next t) : t.phase = s.phase.after e := by
  cases e with
  | step =>
    obtain ⟨u, hu, -, hph⟩ := engineStep_next s.closeLoad
    cases hu.symm.trans h
    exact hph
  | tick => cases h; exact tick_phase s
  | keySet k => cases h; rfl
  | keyClear k => cases h; rfl
  | reset => cases h; rfl
  | load glyphs image =>
    rcases load_cases glyphs image s with ⟨-, -, e⟩ | ⟨-, -, e⟩ | ⟨-, e⟩ <;> cases e.symm.trans h
    rfl

theorem step_phase {s t : State} (h : step s = .next t) : t.phase = s.phase.after s.schedule.next :=
  applyEvent_phase (s := s.takeEvent) ((step_eq s).symm.trans h)

/-! ## Load (R213, R214) -/

section Load

variable {glyphs : Vector Byte 80} {image : List Byte} {s : State}

theorem load_of_fits (hph : s.phase = .created) (hlen : image.length ≤ 3584) :
    load glyphs image s = .next (loadImage glyphs image s).closeLoad := by
  rcases load_cases glyphs image s with ⟨-, -, e⟩ | ⟨-, hlong, -⟩ | ⟨hunder, -⟩
  · exact e
  · omega
  · exact absurd (hph.symm.trans hunder) nofun

theorem load_of_too_long (hph : s.phase = .created) (hlong : 3584 < image.length) :
    load glyphs image s = .refused .imageTooLong := by
  rcases load_cases glyphs image s with ⟨-, hlen, -⟩ | ⟨-, -, e⟩ | ⟨hunder, -⟩
  · omega
  · exact e
  · exact absurd (hph.symm.trans hunder) nofun

theorem load_of_underway (hph : s.phase = .underway) : load glyphs image s = .refused .loadNotAllowed := by
  rcases load_cases glyphs image s with ⟨hcreated, -⟩ | ⟨hcreated, -⟩ | ⟨-, e⟩
  · exact absurd (hph.symm.trans hcreated) nofun
  · exact absurd (hph.symm.trans hcreated) nofun
  · exact e

/-- The glyph table ends below the image, so the image overwrites none of it. -/
theorem loadImage_read_glyph (hm : s.mem.wf = true) {j : Nat} (hj : j < 80) :
    (loadImage glyphs image s).mem.read (0x050 + j) = glyphs[j] := by
  have hbelow : 0x050 + j < Config.programBase := by rw [programBase_eq]; omega
  have hglyph := Memory.read_writeBytes_inside hm (base := Config.glyphBase) (bytes := glyphs.toList) (k := j)
    (by simp) (by simpa using hj)
  rw [Vector.getElem_toList] at hglyph
  exact (Memory.read_writeBytes_outside _ (.inl hbelow)).trans hglyph

theorem loadImage_read_image (hm : s.mem.wf = true) (hlen : image.length ≤ 3584) {j : Nat} (hj : j < image.length) :
    (loadImage glyphs image s).mem.read (0x200 + j) = image[j] := by
  have hglyphs : (s.mem.writeBytes Config.glyphBase glyphs.toList).wf = true := Memory.wf_writeBytes hm (by simp)
  exact Memory.read_writeBytes_inside hglyphs (base := Config.programBase)
    (by rw [programBase_eq, memSize_eq]; omega) hj

theorem loadImage_read_other {a : Nat} (hglyphs : a < 0x050 ∨ 0x0A0 ≤ a)
    (himage : a < 0x200 ∨ 0x200 + image.length ≤ a) : (loadImage glyphs image s).mem.read a = s.mem.read a := by
  have hout : a < Config.glyphBase ∨ Config.glyphBase + glyphs.toList.length ≤ a := by simpa using hglyphs
  exact (Memory.read_writeBytes_outside _ himage).trans (Memory.read_writeBytes_outside _ hout)

end Load

/-- Of the events but Step and Reset, the one Load alone writes Mem. -/
theorem applyEvent_mem {e : Event} {s t : State} (h : applyEvent e s = .next t) (hstep : e ≠ .step) (hreset : e ≠ .reset)
    (hload : s.phase = .underway ∨ ∀ glyphs image, e ≠ .load glyphs image) : t.mem = s.mem := by
  cases e with
  | step => exact absurd rfl hstep
  | tick => cases h; exact tick_mem s
  | keySet k => cases h; rfl
  | keyClear k => cases h; rfl
  | reset => exact absurd rfl hreset
  | load glyphs image =>
    have hph : s.phase = .underway := hload.resolve_right fun hno => hno glyphs image rfl
    exact absurd ((load_of_underway hph).symm.trans h) nofun

/-! ## The host's contract, event by event (R213 to R215) -/

theorem legalFrom_step_iff {ph : Phase} : legalFrom ph [.step] = true ↔ ph = .underway := by
  cases ph <;> decide

theorem legalFrom_load_iff {ph : Phase} {glyphs : Vector Byte 80} {image : List Byte} :
    legalFrom ph [.load glyphs image] = true ↔ ph = .created ∧ image.length ≤ 3584 := by
  cases ph with
  | created =>
    rw [legalFrom, legalFrom, Bool.and_true, decide_eq_true_iff, maxProgramBytes_eq]
    exact (and_iff_right rfl).symm
  | underway => exact ⟨nofun, fun h => absurd h.1 nofun⟩

/-- The contract admits a first event by its phase, and judges the others from the phase that event leads to. -/
theorem legalFrom_cons (ph : Phase) (e : Event) (es : List Event) :
    legalFrom ph (e :: es) = (legalFrom ph [e] && legalFrom (ph.after e) es) := by
  cases e with
  | step | tick | load => cases ph <;> simp [legalFrom, Phase.after]
  | keySet | keyClear | reset => simp [legalFrom, Phase.after]

theorem legalFrom_next {s : State} (h : Legal s) : legalFrom s.phase [s.schedule.next] = true := h 1

theorem legalFrom_rest {s : State} (h : Legal s) (k : Nat) :
    legalFrom (s.phase.after s.schedule.next) (firstEvents k s.schedule.rest) = true := by
  have hk := h (k + 1)
  rw [firstEvents, legalFrom_cons, Bool.and_eq_true] at hk
  exact hk.2

/-- An event that the contract admits is not refused: a Load is the one that refuses, and it comes once and fits. -/
theorem exists_next_of_legalFrom {e : Event} {s : State} (h : legalFrom s.phase [e] = true) :
    ∃ t, applyEvent e s = .next t := by
  cases e with
  | step =>
    obtain ⟨t, ht, -⟩ := engineStep_next s.closeLoad
    exact ⟨t, ht⟩
  | tick | keySet | keyClear | reset => exact ⟨_, rfl⟩
  | load glyphs image =>
    obtain ⟨hph, hlen⟩ := legalFrom_load_iff.1 h
    exact ⟨_, load_of_fits hph hlen⟩

/-- A step within the contract leads to a state that keeps it. -/
theorem legal_step {s t : State} (hs : Legal s) (h : step s = .next t) : Legal t := by
  intro k
  rw [step_phase h, step_schedule h]
  exact legalFrom_rest hs k

end Sys2Proof.Machine

namespace Sys2Proof.Proofs

open Sys2Proof.Machine Sys2Proof.Safety

/-- Settles O10: the contract admits the next event, so it is not refused, and judges the rest from the phase it leads to; the
contract admits a Step in a session under way only, which a Step leaves under way. -/
theorem legalSessionsNeverStop : Obligations.LegalSessionsNeverStop := by
  unfold Obligations.LegalSessionsNeverStop
  intro s hs
  have hnext := legalFrom_next hs
  obtain ⟨t, h⟩ : ∃ t, step s = .next t := exists_next_of_legalFrom (s := s.takeEvent) hnext
  refine ⟨t, h, legal_step hs h, (step_phase h).trans ?_⟩
  cases he : s.schedule.next with
  | step =>
    rw [he] at hnext
    exact (legalFrom_step_iff.1 hnext).symm
  | tick | keySet | keyClear | reset | load => rfl

/-- Settles O22: the two ranges lie inside Mem and apart, and each is written as R213 says. -/
theorem loadPlacesGlyphsAndImage : Obligations.LoadPlacesGlyphsAndImage := by
  unfold Obligations.LoadPlacesGlyphsAndImage
  intro s glyphs image hm hnext hph
  rw [step_of_event hnext]
  refine ⟨fun hlen => ⟨_, load_of_fits (s := s.takeEvent) hph hlen, ?_, ?_, ?_, rfl⟩, fun hlong => ?_⟩
  · exact fun j hj => loadImage_read_glyph (s := s.takeEvent) hm hj
  · exact fun j hj => loadImage_read_image (s := s.takeEvent) hm hlen hj
  · exact fun a hglyphs himage => loadImage_read_other (s := s.takeEvent) hglyphs himage
  · exact load_of_too_long (s := s.takeEvent) hph hlong

/-- Settles O23: a Load under way is refused, and the phase of the next state is the one the event leads to. -/
theorem hostWritesMemoryOnlyByTheOneLoad : Obligations.HostWritesMemoryOnlyByTheOneLoad := by
  unfold Obligations.HostWritesMemoryOnlyByTheOneLoad
  refine ⟨fun s glyphs image hnext hph => ?_, fun s t h hnext => ?_, fun s t h hph hreset => ?_,
    fun s t h hstep hreset hload => ?_⟩
  · rw [step_of_event hnext]
    exact load_of_underway (s := s.takeEvent) hph
  · rw [step_phase h]
    rcases hnext with he | ⟨glyphs, image, he⟩ <;> rw [he] <;> rfl
  · rw [step_phase h, hph, Phase.after_underway hreset]
  · exact applyEvent_mem (s := s.takeEvent) ((step_eq s).symm.trans h) hstep hreset hload

end Sys2Proof.Proofs
end
